-- ==== Sys2Proof/Word.lean ====
section
/-! DEFINITION. The word types of the MAE: host words and addresses, command words, register numbers.
Log entry 8 says how one host word type serves both limb widths. -/

namespace Sys2Proof

/-- One host word. The hardware's word has W bits, W being 32 or 64 (spec 20_memory.md R31, R33); with
W = 32 the bits 63:32 do not exist: a write ignores them and a read returns them as 0
(DESIGN CHOICE, safe, log entry 8). -/
abbrev Word := BitVec 64

/-- A host word address: 13 bits (spec 20_memory.md R31). -/
abbrev Addr := BitVec 13

/-- A command word: 32 bits (spec 30_encoding.md R49). -/
abbrev CmdWord := BitVec 32

/-- The number of a BigInt register, 0 to 15; every 4-bit field value is legal
(spec 10_state.md R13). -/
abbrev Reg := Fin 16

end Sys2Proof
end

