-- ==== Sys2Proof/Syntax.lean ====
section
/-! DEFINITION. The fourteen commands (spec 30_encoding.md R53), operands in the order of that table. -/

namespace Sys2Proof

/-- A command. The pseudo-commands CLR, SQRMOD, MOV and NEG are abbreviations of these and have no
encodings of their own (spec 30_encoding.md R58). LDI's immediate is a number that `WellFormed` bounds
by its 20 bits (log entry 12). -/
inductive Instr where
  /-- LDI rd, imm: load a small constant (R62). -/
  | ldi (rd : Reg) (imm : Nat)
  /-- LOAD rd: transfer buffer to register (R63). -/
  | load (rd : Reg)
  /-- STORE ra: register to transfer buffer (R64). -/
  | store (ra : Reg)
  /-- ADD rd, ra, rb (R65). -/
  | add (rd ra rb : Reg)
  /-- SUB rd, ra, rb (R66). -/
  | sub (rd ra rb : Reg)
  /-- MUL rd, ra, rb (R67). -/
  | mul (rd ra rb : Reg)
  /-- MOD rd, ra, rm (R68). -/
  | mod (rd ra rm : Reg)
  /-- CMP ra, rb (R69). -/
  | cmp (ra rb : Reg)
  /-- ISEVEN ra (R70). -/
  | isEven (ra : Reg)
  /-- ISZERO ra (R71). -/
  | isZero (ra : Reg)
  /-- MULMOD rd, ra, rb, rm (R76). -/
  | mulMod (rd ra rb rm : Reg)
  /-- MODEXP rd, ra, rb, rm: base ra, exponent rb, modulus rm (R77). -/
  | modExp (rd ra rb rm : Reg)
  /-- GCD rd, ra, rb (R80). -/
  | gcd (rd ra rb : Reg)
  /-- MODINV rd, ra, rm (R82). -/
  | modInv (rd ra rm : Reg)
  deriving DecidableEq, Repr

end Sys2Proof
end

