-- ==== Sys2Proof/WellFormed.lean ====
section
/-! DEFINITION. Which commands have an encoding: the one check the types do not make is the width of
LDI's immediate (spec 30_encoding.md R52); every register number is legal (R13, R56). -/

namespace Sys2Proof

/-- The bound of LDI's immediate: 20 bits, unsigned (spec 30_encoding.md R52). -/
def immBound : Nat := 2 ^ 20

/-- A command that some command word encodes. -/
def WellFormed : Instr → Bool
  | .ldi _ imm => decide (imm < immBound)
  | .load _ => true
  | .store _ => true
  | .add _ _ _ => true
  | .sub _ _ _ => true
  | .mul _ _ _ => true
  | .mod _ _ _ => true
  | .cmp _ _ => true
  | .isEven _ => true
  | .isZero _ => true
  | .mulMod _ _ _ _ => true
  | .modExp _ _ _ _ => true
  | .gcd _ _ _ => true
  | .modInv _ _ _ => true

end Sys2Proof
end

