-- ==== Sys2Proof/Decode.lean ====
section
/-! DEFINITION. Decoding and encoding command words (spec 30_encoding.md R49 to R60). A command word reaches the
MAE whole, as one 32-bit number: there are no instruction bytes and no byte order (R49, 20_memory.md R36). -/

namespace Sys2Proof

/-- Why a word is no command. Both cases are the one fault IllegalCommand of the machine
(spec 30_encoding.md R55). -/
inductive Reject where
  /-- The opcode is none of the fourteen of R53. -/
  | unassignedOpcode
  /-- The opcode is assigned, but a field the command does not use, or bits 7:0 of format R, is not 0 (R54). -/
  | unusedFieldNotZero
  deriving DecidableEq, Repr

/-- The bits of a word from bit `lo` up, `width` of them, as a number (spec 00_scope.md R6). -/
def bitsOf (w : CmdWord) (lo width : Nat) : Nat := w.toNat / 2 ^ lo % 2 ^ width

/-- The 4-bit register field whose lowest bit is `lo`. -/
def regField (w : CmdWord) (lo : Nat) : Reg := Fin.ofNat 16 (bitsOf w lo 4)

/-- Bits 31:24 (R50, R51). -/
def opField (w : CmdWord) : Nat := bitsOf w 24 8
/-- Bits 23:20 (R50, R51). -/
def rdField (w : CmdWord) : Reg := regField w 20
/-- Bits 19:16 (R50). -/
def raField (w : CmdWord) : Reg := regField w 16
/-- Bits 15:12 (R50). -/
def rbField (w : CmdWord) : Reg := regField w 12
/-- Bits 11:8 (R50). -/
def rmField (w : CmdWord) : Reg := regField w 8
/-- Bits 7:0, which format R requires to be 0 (R50, R54). -/
def zField (w : CmdWord) : Nat := bitsOf w 0 8
/-- Bits 19:0, LDI's immediate, zero-extended (R51, R52). -/
def immField (w : CmdWord) : Nat := bitsOf w 0 20

/-- Answer the command if every unused field is 0, reject the word otherwise (R54). -/
def requireUnused (zero : Bool) (i : Instr) : Except Reject Instr :=
  if zero then .ok i else .error .unusedFieldNotZero

/-- Decoding, total on 32-bit words (spec 30_encoding.md R53 to R56). -/
def decode (w : CmdWord) : Except Reject Instr :=
  let rd := rdField w
  let ra := raField w
  let rb := rbField w
  let rm := rmField w
  let z := zField w == 0
  match opField w with
  | 0x01 => .ok (.ldi rd (immField w))
  | 0x02 => requireUnused (ra == 0 && rb == 0 && rm == 0 && z) (.load rd)
  | 0x03 => requireUnused (rd == 0 && rb == 0 && rm == 0 && z) (.store ra)
  | 0x10 => requireUnused (rm == 0 && z) (.add rd ra rb)
  | 0x11 => requireUnused (rm == 0 && z) (.sub rd ra rb)
  | 0x12 => requireUnused (rm == 0 && z) (.mul rd ra rb)
  | 0x13 => requireUnused (rb == 0 && z) (.mod rd ra rm)
  | 0x14 => requireUnused (rd == 0 && rm == 0 && z) (.cmp ra rb)
  | 0x15 => requireUnused (rd == 0 && rb == 0 && rm == 0 && z) (.isEven ra)
  | 0x16 => requireUnused (rd == 0 && rb == 0 && rm == 0 && z) (.isZero ra)
  | 0x20 => requireUnused z (.mulMod rd ra rb rm)
  | 0x21 => requireUnused z (.modExp rd ra rb rm)
  | 0x22 => requireUnused (rm == 0 && z) (.gcd rd ra rb)
  | 0x23 => requireUnused (rb == 0 && z) (.modInv rd ra rm)
  | _ => .error .unassignedOpcode

/-- The format R word with these fields (spec 30_encoding.md R50, R59). -/
def wordR (op : Nat) (rd ra rb rm : Reg) : CmdWord :=
  BitVec.ofNat 32 (op * 2 ^ 24 + rd.val * 2 ^ 20 + ra.val * 2 ^ 16 + rb.val * 2 ^ 12 + rm.val * 2 ^ 8)

/-- The format I word with these fields (spec 30_encoding.md R51, R59). -/
def wordI (op : Nat) (rd : Reg) (imm : Nat) : CmdWord :=
  BitVec.ofNat 32 (op * 2 ^ 24 + rd.val * 2 ^ 20 + imm % immBound)

/-- Encoding: unused fields are 0 (spec 30_encoding.md R53, R59). -/
def encode : Instr → CmdWord
  | .ldi rd imm => wordI 0x01 rd imm
  | .load rd => wordR 0x02 rd 0 0 0
  | .store ra => wordR 0x03 0 ra 0 0
  | .add rd ra rb => wordR 0x10 rd ra rb 0
  | .sub rd ra rb => wordR 0x11 rd ra rb 0
  | .mul rd ra rb => wordR 0x12 rd ra rb 0
  | .mod rd ra rm => wordR 0x13 rd ra 0 rm
  | .cmp ra rb => wordR 0x14 0 ra rb 0
  | .isEven ra => wordR 0x15 0 ra 0 0
  | .isZero ra => wordR 0x16 0 ra 0 0
  | .mulMod rd ra rb rm => wordR 0x20 rd ra rb rm
  | .modExp rd ra rb rm => wordR 0x21 rd ra rb rm
  | .gcd rd ra rb => wordR 0x22 rd ra rb 0
  | .modInv rd ra rm => wordR 0x23 rd ra 0 rm

/-- What the decoder reads from a word of `nbits` bits numbered as the opcode table numbers them. -/
def decodeTableWord (nbits w : Nat) : Option Instr :=
  match decode (BitVec.ofNat 32 (w % 2 ^ nbits)) with
  | .ok i => some i
  | .error _ => none

/-- One row of the opcode map (spec 30_encoding.md R53). -/
structure OpcodeRow where
  mnemonic : String
  op : Nat
  pattern : CmdWord
  mask : CmdWord
  deriving DecidableEq, Repr

/-- A word matches a row exactly when `w AND mask = match` (R53). -/
def OpcodeRow.matches (r : OpcodeRow) (w : CmdWord) : Bool := w &&& r.mask == r.pattern

/-- The opcode map as spec 30_encoding.md R53 prints it. The decoder does not read it: that the two
agree is a claim. -/
def opcodeTable : List OpcodeRow :=
  [⟨"LDI", 0x01, 0x01000000, 0xFF000000⟩, ⟨"LOAD", 0x02, 0x02000000, 0xFF0FFFFF⟩,
   ⟨"STORE", 0x03, 0x03000000, 0xFFF0FFFF⟩, ⟨"ADD", 0x10, 0x10000000, 0xFF000FFF⟩,
   ⟨"SUB", 0x11, 0x11000000, 0xFF000FFF⟩, ⟨"MUL", 0x12, 0x12000000, 0xFF000FFF⟩,
   ⟨"MOD", 0x13, 0x13000000, 0xFF00F0FF⟩, ⟨"CMP", 0x14, 0x14000000, 0xFFF00FFF⟩,
   ⟨"ISEVEN", 0x15, 0x15000000, 0xFFF0FFFF⟩, ⟨"ISZERO", 0x16, 0x16000000, 0xFFF0FFFF⟩,
   ⟨"MULMOD", 0x20, 0x20000000, 0xFF0000FF⟩, ⟨"MODEXP", 0x21, 0x21000000, 0xFF0000FF⟩,
   ⟨"GCD", 0x22, 0x22000000, 0xFF000FFF⟩, ⟨"MODINV", 0x23, 0x23000000, 0xFF00F0FF⟩]

/-- The mnemonic of a command (R53). -/
def mnemonicOf : Instr → String
  | .ldi _ _ => "LDI"
  | .load _ => "LOAD"
  | .store _ => "STORE"
  | .add _ _ _ => "ADD"
  | .sub _ _ _ => "SUB"
  | .mul _ _ _ => "MUL"
  | .mod _ _ _ => "MOD"
  | .cmp _ _ => "CMP"
  | .isEven _ => "ISEVEN"
  | .isZero _ => "ISZERO"
  | .mulMod _ _ _ _ => "MULMOD"
  | .modExp _ _ _ _ => "MODEXP"
  | .gcd _ _ _ => "GCD"
  | .modInv _ _ _ => "MODINV"

/-- The opcode of a command (R53). -/
def opcodeOf : Instr → Nat
  | .ldi _ _ => 0x01
  | .load _ => 0x02
  | .store _ => 0x03
  | .add _ _ _ => 0x10
  | .sub _ _ _ => 0x11
  | .mul _ _ _ => 0x12
  | .mod _ _ _ => 0x13
  | .cmp _ _ => 0x14
  | .isEven _ => 0x15
  | .isZero _ => 0x16
  | .mulMod _ _ _ _ => 0x20
  | .modExp _ _ _ _ => 0x21
  | .gcd _ _ _ => 0x22
  | .modInv _ _ _ => 0x23

end Sys2Proof
end

