-- ==== Sys2Proof/Machine/Arith.lean ====
section
/-! DEFINITION. The integer primitives of spec 00_scope.md R7 and the loops of 41_modular.md R77, R80 and R82. -/

namespace Sys2Proof.Machine

/-- `fdiv(a, m)`: the floor of a/m (R7). -/
def fdiv (a m : Int) : Int := Int.fdiv a m

/-- `emod(a, m) = a - m * fdiv(a, m)` (R7). -/
def emod (a m : Int) : Int := a - m * fdiv a m

/-- `bitlen(v)`: 0 for 0, otherwise the least n with v < 2^n (R7). -/
def bitlen (v : Nat) : Nat := if v = 0 then 0 else Nat.log2 v + 1

/-- `bit(v, i) = fdiv(v, 2^i) mod 2` (R7). -/
def bit (v i : Nat) : Nat := v / 2 ^ i % 2

/-- `sgn(v)`: 1 when v < 0 (R7). -/
def sgn (v : Int) : Bool := decide (v < 0)

/-- `nlimbs(v) = max(1, ceil(bitlen(abs(v)) / W))` (R7). -/
def nlimbs (limbBits : Nat) (v : Int) : Nat := max 1 ((bitlen v.natAbs + (limbBits - 1)) / limbBits)

/-- `limb(v, i) = fdiv(abs(v), 2^(W*i)) mod 2^W` (R7). -/
def limb (limbBits : Nat) (v : Int) (i : Nat) : Nat := v.natAbs / 2 ^ (limbBits * i) % 2 ^ limbBits

/-- MODEXP's loop (41_modular.md R77): `n` iterations from exponent bit `i` on, with accumulator `acc` and
running base `rb`. The multiplication uses the running base as it stands; the squaring follows
(90_conflicts.md C1). -/
def modExpLoop (e : Nat) (m : Int) : (n i : Nat) → (acc rb : Int) → Int
  | 0, _, acc, _ => acc
  | n + 1, i, acc, rb =>
    modExpLoop e m n (i + 1) (if bit e i = 1 then emod (acc * rb) m else acc) (emod (rb * rb) m)

/-- b^e mod m by square and multiply, least significant exponent bit first (R77). -/
def modExpValue (b : Int) (e : Nat) (m : Int) : Int :=
  modExpLoop e m (bitlen e) 0 (emod 1 m) (emod b m)

/-- GCD's loop (41_modular.md R80). The fuel bounds the iterations: `y` strictly decreases (R81, R85; log
entry 13). -/
def gcdLoop : (fuel : Nat) → (x y : Int) → Int
  | 0, x, _ => x
  | fuel + 1, x, y => if y = 0 then x else gcdLoop fuel y (emod x y)

/-- gcd(a, b) by the Euclidean algorithm (R80), for a and b not negative. -/
def gcdValue (a b : Int) : Int := gcdLoop (b.natAbs + 1) a b

/-- MODINV's loop (41_modular.md R82): the pair (R0, T0) it ends with. The fuel bounds the iterations:
`r1` strictly decreases (R85; log entry 13). -/
def modInvLoop : (fuel : Nat) → (r0 r1 t0 t1 : Int) → Int × Int
  | 0, r0, _, t0, _ => (r0, t0)
  | fuel + 1, r0, r1, t0, t1 =>
    if r1 = 0 then (r0, t0)
    else modInvLoop fuel r1 (r0 - fdiv r0 r1 * r1) t1 (t0 - fdiv r0 r1 * t1)

/-- The gcd of a and m, and the coefficient of a, before normalisation (R82), for m > 0. -/
def modInvPair (a m : Int) : Int × Int := modInvLoop ((emod a m).natAbs + 1) m (emod a m) 0 1

end Sys2Proof.Machine
end

