-- ==== Sys2Proof/Config.lean ====
section
/-! DEFINITION. The parameters an implementation fixes (spec 00_scope.md R5). The spec leaves no value free
("Nothing in the MAE yields 'any value' to the host", 93_implementation_defined.md), so there is no
uninterpreted constant here. -/

namespace Sys2Proof

/-- `LIMB_BITS`: the limb base is 2^32 or 2^64 (spec 00_scope.md R5). -/
inductive LimbWidth where
  | w32
  | w64
  deriving DecidableEq, Repr

/-- The limb width in bits. -/
def LimbWidth.bits : LimbWidth → Nat
  | .w32 => 32
  | .w64 => 64

/-- The two parameters of the MAE, W = `LIMB_BITS` and L = `MAX_LIMBS`, 1 ≤ L ≤ 4096
(spec 00_scope.md R5). `MAE_BASE` is read by no rule and is left out. -/
structure Params where
  limbWidth : LimbWidth
  maxLimbs : Nat
  one_le_maxLimbs : 1 ≤ maxLimbs
  maxLimbs_le : maxLimbs ≤ 4096
  deriving DecidableEq, Repr

/-- W, the width of a limb and of a host word in bits (spec 00_scope.md R5). -/
def Params.limbBits (p : Params) : Nat := p.limbWidth.bits

/-- CAP = W * L: a register holds exactly the integers v with |v| < 2^CAP (spec 00_scope.md R5). -/
def Params.capacity (p : Params) : Nat := p.limbBits * p.maxLimbs

/-- The defaults of spec 00_scope.md R5: W = 32, L = 128. -/
def Params.default : Params := ⟨.w32, 128, by decide, by decide⟩

end Sys2Proof
end

