-- ==== Sys2Proof/Machine/State.lean ====
section
/-! DEFINITION. Everything the spec gives the machine (spec 10_state.md), as plain data, and its value after reset. -/

namespace Sys2Proof.Machine

/-- The error kinds a command can end with (spec 60_exceptions.md R88). They are the MAE's own faults: taking
one is a next state (R92), not a stop of the model. -/
inductive ErrKind where
  /-- Code 1: the modulus operand is 0. -/
  | divisionByZero
  /-- Code 2: gcd(x[ra], x[rm]) is not 1 (MODINV). -/
  | noInverseExists
  /-- Code 3: an operand outside the domain the source defines. -/
  | invalidOperand
  /-- Code 4: the result needs more than L limbs. -/
  | overflow
  /-- Code 5: the command word matches no row of the opcode map. -/
  | illegalCommand
  deriving DecidableEq, Repr

/-- FLAGS (spec 10_state.md R20). -/
structure Flags where
  lt : Bool
  eq : Bool
  gt : Bool
  even : Bool
  zero : Bool
  deriving DecidableEq, Repr

/-- The limbs XLIMB of the transfer buffer (spec 10_state.md R23): pairs (limb index, limb) in rising order of
the index, with no limb 0 listed. An index that is not listed reads 0, which is the spec's reset value
(R28). The unit is the host word, the smallest the host can address (20_memory.md R36);
`Memory.wf` is the canonical form (log entry 7). -/
abbrev Memory := List (Nat × Nat)

/-- What can happen next, in the order in which it happens (spec 20_memory.md R44; log entry 2). -/
inductive Event where
  /-- The host reads one word (R33). -/
  | read (addr : Addr)
  /-- The host writes one word (R33). -/
  | write (addr : Addr) (value : Word)
  /-- The hardware reset event (70_reset_and_hazards.md R103). -/
  | hardReset
  /-- The engine's turn: it completes the command in flight, if there is one (R43). -/
  | engine
  deriving DecidableEq, Repr

/-- The state. `params` are the machine's two parameters, which no step changes (spec 00_scope.md R5, log
entry 1); `script` and `replies` are the host's side: what is still to happen, and the words its
reads have returned, newest first (log entries 2 and 3). All else is the MAE's state of
10_state.md R13 to R23. -/
structure State where
  params : Params
  regs : Vector Int 16
  cmd : CmdWord
  busy : Bool
  err : Option ErrKind
  flags : Flags
  xsign : Bool
  xlen : BitVec 16
  xlimb : Memory
  script : List Event
  replies : List Word
  deriving DecidableEq, Repr

/-- The reasons for the machine to stop. There are none: every command completes on every state (spec
20_memory.md R43, 41_modular.md R85), the MAE's own faults are next states (60_exceptions.md
R92), and no host access faults (R87). -/
inductive Fault where
  deriving DecidableEq, Repr

/-- The reasons for the model to decline a step. -/
inductive Refusal where
  /-- Raised by an arm of `exec` whose command has no meaning yet; no arm does. Safe: it stops. -/
  | notModelled (mnemonic : String)
  deriving DecidableEq, Repr

/-- The reset values of spec 10_state.md R28 for a machine with parameters `p`, with nothing on the host's side. -/
def State.resetOf (p : Params) : State where
  params := p
  regs := Vector.replicate 16 0
  cmd := 0
  busy := false
  err := none
  flags := ⟨false, false, false, false, false⟩
  xsign := false
  xlen := 1
  xlimb := []
  script := []
  replies := []

/-- The machine right after reset (spec 10_state.md R28), with the default parameters of 00_scope.md R5. -/
def State.reset : State := State.resetOf Params.default

end Sys2Proof.Machine
end

