-- ==== Sys2Proof/Machine/Ops.lean ====
section
/-! DEFINITION. The shared operations: registers, the transfer buffer's limbs, a command's completion, taking a
fault and acknowledging it, and reset. -/

namespace Sys2Proof.Machine

/-! ## BigInt registers -/

/-- `x[i]`: read a BigInt register (spec 00_scope.md R8). -/
def State.x (s : State) (r : Reg) : Int := s.regs[r]

/-- Store an integer that has passed the capacity test into a register (spec 10_state.md R15). -/
def State.setX (s : State) (r : Reg) (v : Int) : State := { s with regs := s.regs.set r v }

/-- The capacity test of spec 10_state.md R15: at most L limbs. -/
def fits (p : Params) (v : Int) : Bool := nlimbs p.limbBits v ≤ p.maxLimbs

/-! ## The limbs of the transfer buffer -/

/-- The canonical form: indexes strictly rising and below L, limbs W bits wide, no limb 0 listed. -/
abbrev Memory.wf (p : Params) (m : Memory) : Prop :=
  m.Pairwise (fun a b => a.1 < b.1) ∧ ∀ c ∈ m, c.1 < p.maxLimbs ∧ 0 < c.2 ∧ c.2 < 2 ^ p.limbBits

/-- Read limb `i`; an index that is not listed reads 0 (spec 10_state.md R23, R28). -/
def Memory.read : Memory → Nat → Nat
  | [], _ => 0
  | c :: m, i => if c.1 = i then c.2 else Memory.read m i

/-- Write limb `i`; writing 0 takes the entry away. -/
def Memory.write : Memory → Nat → Nat → Memory
  | [], i, v => if v = 0 then [] else [(i, v)]
  | c :: m, i, v =>
    if c.1 < i then c :: Memory.write m i v
    else
      let rest := if c.1 = i then m else c :: m
      if v = 0 then rest else (i, v) :: rest

/-- The memory whose limbs `i`, …, `i + n - 1` are the values of `f` and whose other limbs are 0. -/
def Memory.ofFn (f : Nat → Nat) : (i n : Nat) → Memory
  | _, 0 => []
  | i, n + 1 => if f i = 0 then Memory.ofFn f (i + 1) n else (i, f i) :: Memory.ofFn f (i + 1) n

/-- XLIMB[i] (spec 10_state.md R23). -/
def State.limbAt (s : State) (i : Nat) : Nat := s.xlimb.read i

/-- sum_{0 <= i < n} XLIMB[i] * 2^(W*i) (spec 20_memory.md R37). -/
def limbSum (limbBits : Nat) (m : Memory) : (n : Nat) → Nat
  | 0 => 0
  | n + 1 => limbSum limbBits m n + m.read n * 2 ^ (limbBits * n)

/-! ## Faults -/

/-- ERR's code of an error kind (spec 60_exceptions.md R88). -/
def ErrKind.code : ErrKind → Nat
  | .divisionByZero => 1
  | .noInverseExists => 2
  | .invalidOperand => 3
  | .overflow => 4
  | .illegalCommand => 5

/-- Fault entry: ERR <- code(K), BUSY <- 0, nothing else (spec 60_exceptions.md R92). -/
def takeFault (k : ErrKind) (s : State) : State := { s with err := some k, busy := false }

/-- Acknowledge, the "return from trap": ERR <- 0, nothing restored (spec 60_exceptions.md R94). -/
def acknowledge (s : State) : State := { s with err := none }

/-! ## Completion of a command -/

/-- What a command writes: at most one BigInt register, or flags, or the transfer buffer
(spec 40_bigint.md R61). -/
inductive Effect where
  /-- One BigInt register. -/
  | reg (rd : Reg) (v : Int)
  /-- FLAGS. -/
  | flags (f : Flags)
  /-- The whole transfer buffer, as the image of an integer. -/
  | image (v : Int)
  deriving DecidableEq, Repr

/-- The outcome of a command's pseudocode, ok(writes) or fault(K) (spec 20_memory.md R43). -/
abbrev CmdResult := Except ErrKind Effect

/-- The checked register write `x[d] <- v` (spec 10_state.md R15). -/
def writeReg (p : Params) (rd : Reg) (v : Int) : CmdResult :=
  if fits p v then .ok (.reg rd v) else .error .overflow

/-- Limb `i` of the image of an integer: its limbs, zero above (spec 20_memory.md R38). -/
def imageLimb (limbBits : Nat) (v : Int) (i : Nat) : Nat :=
  if i < nlimbs limbBits v then limb limbBits v i else 0

/-- Fill the transfer buffer with the canonical image of an integer (spec 20_memory.md R38). XLEN takes the
limb count whole: it is at most L ≤ 4096 for a register's value (log entry 18). -/
def storeImage (v : Int) (s : State) : State :=
  { s with
    xsign := sgn v
    xlen := BitVec.ofNat 16 (nlimbs s.params.limbBits v)
    xlimb := Memory.ofFn (imageLimb s.params.limbBits v) 0 s.params.maxLimbs }

/-- Apply every write of a command (spec 20_memory.md R43). -/
def applyEffect : Effect → State → State
  | .reg rd v, s => s.setX rd v
  | .flags f, s => { s with flags := f }
  | .image v, s => storeImage v s

/-- BUSY <- 0, the last part of a completion (spec 20_memory.md R43). -/
def finish (s : State) : State := { s with busy := false }

/-- The engine's completion: the writes, or the fault, and BUSY <- 0, in one step
(spec 20_memory.md R43). -/
def complete (r : CmdResult) (s : State) : Host.Outcome State Fault Refusal :=
  match r with
  | .ok e => .next (finish (applyEffect e s))
  | .error k => .next (takeFault k s)

/-! ## Phases and reset -/

/-- The three phases (spec 10_state.md R27). -/
inductive Phase where
  | idle
  | busy
  | fault
  deriving DecidableEq, Repr

/-- The phase, a function of BUSY and ERR (spec 10_state.md R27). -/
def State.phase (s : State) : Phase :=
  if s.busy then .busy else if s.err.isSome then .fault else .idle

/-- Reset of the MAE: every piece of its state goes to the value of spec 10_state.md R28, in any phase
(70_reset_and_hazards.md R104). The parameters are no state, and what the host has still to do and
has already read is the host's (log entry 4). -/
def resetMae (s : State) : State :=
  { State.resetOf s.params with script := s.script, replies := s.replies }

end Sys2Proof.Machine
end

