-- ==== Sys2Proof/Machine/Flags.lean ====
section
/-! DEFINITION. Flag computations, and the words that STATUS, ERR and FLAGS read as. -/

namespace Sys2Proof.Machine

/-- CMP's flags: LT, EQ, GT of the signed comparison; EVEN and ZERO stay (spec 40_bigint.md R69). -/
def compareFlags (f : Flags) (a b : Int) : Flags :=
  { f with lt := decide (a < b), eq := decide (a = b), gt := decide (a > b) }

/-- ISEVEN's flag: bit 0 of limb 0 of the magnitude is 0; the other flags stay (spec 40_bigint.md R70). -/
def parityFlags (limbBits : Nat) (f : Flags) (a : Int) : Flags :=
  { f with even := decide (limb limbBits a 0 % 2 = 0) }

/-- ISZERO's flag; the other flags stay (spec 40_bigint.md R71). -/
def zeroFlags (f : Flags) (a : Int) : Flags := { f with zero := decide (a = 0) }

/-- FLAGS as a number: LT bit 0, EQ bit 1, GT bit 2, EVEN bit 3, ZERO bit 4 (spec 10_state.md R20). -/
def Flags.value (f : Flags) : Nat :=
  f.lt.toNat + 2 * f.eq.toNat + 4 * f.gt.toNat + 8 * f.even.toNat + 16 * f.zero.toNat

/-- STATUS as a number: BUSY bit 0, FAULT bit 1 (spec 10_state.md R18). -/
def statusValue (s : State) : Nat := s.busy.toNat + 2 * s.err.isSome.toNat

/-- ERR as a number: the code, or 0 (spec 10_state.md R19). -/
def errValue (s : State) : Nat := match s.err with
  | none => 0
  | some k => k.code

end Sys2Proof.Machine
end

