-- ==== Sys2Proof/Machine/Operands.lean ====
section
/-! DEFINITION. Operand forms: the immediate, the transfer buffer as an operand, and the tests on operands that
come before a command's arithmetic. Register operands are `State.x` (Ops.lean). -/

namespace Sys2Proof.Machine

/-- The value of LDI's immediate: zero-extended (spec 30_encoding.md R52). -/
def immValue (imm : Nat) : Int := (imm : Int)

/-- The value of the transfer buffer (spec 20_memory.md R37), with InvalidOperand when XLEN > L
(40_bigint.md R63). -/
def bufferValue (s : State) : Except ErrKind Int :=
  if s.params.maxLimbs < s.xlen.toNat then .error .invalidOperand
  else
    let magnitude : Int := (limbSum s.params.limbBits s.xlimb s.xlen.toNat : Nat)
    .ok (if s.xsign then -magnitude else magnitude)

/-- `checkmod(m)`: DivisionByZero first, then InvalidOperand (spec 41_modular.md R75). -/
def checkMod (m : Int) : Except ErrKind Unit :=
  if m = 0 then .error .divisionByZero
  else if m < 0 then .error .invalidOperand
  else .ok ()

/-- An operand that must not be negative (spec 41_modular.md R77, R80). -/
def checkNonneg (v : Int) : Except ErrKind Unit :=
  if v < 0 then .error .invalidOperand else .ok ()

end Sys2Proof.Machine
end

