-- ==== Sys2Proof/Machine/BigInt.lean ====
section
/-! DEFINITION. The BigInt commands (spec 40_bigint.md). Every source is read from the state at issue before the
one write (R61). -/

namespace Sys2Proof.Machine

/-- LDI rd, imm (R62). -/
def execLdi (rd : Reg) (imm : Nat) (s : State) : Host.Outcome State Fault Refusal :=
  complete (writeReg s.params rd (immValue imm)) s

/-- LOAD rd (R63). -/
def execLoad (rd : Reg) (s : State) : Host.Outcome State Fault Refusal :=
  complete (do
    let v ← bufferValue s
    writeReg s.params rd v) s

/-- STORE ra (R64). -/
def execStore (ra : Reg) (s : State) : Host.Outcome State Fault Refusal :=
  complete (.ok (.image (s.x ra))) s

/-- ADD rd, ra, rb (R65). -/
def execAdd (rd ra rb : Reg) (s : State) : Host.Outcome State Fault Refusal :=
  complete (writeReg s.params rd (s.x ra + s.x rb)) s

/-- SUB rd, ra, rb (R66). -/
def execSub (rd ra rb : Reg) (s : State) : Host.Outcome State Fault Refusal :=
  complete (writeReg s.params rd (s.x ra - s.x rb)) s

/-- MUL rd, ra, rb (R67). -/
def execMul (rd ra rb : Reg) (s : State) : Host.Outcome State Fault Refusal :=
  complete (writeReg s.params rd (s.x ra * s.x rb)) s

/-- MOD rd, ra, rm (R68). -/
def execMod (rd ra rm : Reg) (s : State) : Host.Outcome State Fault Refusal :=
  complete (do
    checkMod (s.x rm)
    writeReg s.params rd (emod (s.x ra) (s.x rm))) s

/-- CMP ra, rb (R69). -/
def execCmp (ra rb : Reg) (s : State) : Host.Outcome State Fault Refusal :=
  complete (.ok (.flags (compareFlags s.flags (s.x ra) (s.x rb)))) s

/-- ISEVEN ra (R70). -/
def execIsEven (ra : Reg) (s : State) : Host.Outcome State Fault Refusal :=
  complete (.ok (.flags (parityFlags s.params.limbBits s.flags (s.x ra)))) s

/-- ISZERO ra (R71). -/
def execIsZero (ra : Reg) (s : State) : Host.Outcome State Fault Refusal :=
  complete (.ok (.flags (zeroFlags s.flags (s.x ra)))) s

end Sys2Proof.Machine
end

