-- ==== Sys2Proof/Machine/Modular.lean ====
section
/-! DEFINITION. The modular commands (spec 41_modular.md). Products and Euclid's intermediates are exact; only the
value written to the destination is tested against the capacity (R84). -/

namespace Sys2Proof.Machine

/-- MULMOD rd, ra, rb, rm (R76). -/
def execMulMod (rd ra rb rm : Reg) (s : State) : Host.Outcome State Fault Refusal :=
  complete (do
    checkMod (s.x rm)
    writeReg s.params rd (emod (s.x ra * s.x rb) (s.x rm))) s

/-- MODEXP rd, ra, rb, rm: base ra, exponent rb, modulus rm (R77). -/
def execModExp (rd ra rb rm : Reg) (s : State) : Host.Outcome State Fault Refusal :=
  complete (do
    checkMod (s.x rm)
    checkNonneg (s.x rb)
    writeReg s.params rd (modExpValue (s.x ra) (s.x rb).natAbs (s.x rm))) s

/-- GCD rd, ra, rb (R80). -/
def execGcd (rd ra rb : Reg) (s : State) : Host.Outcome State Fault Refusal :=
  complete (do
    checkNonneg (s.x ra)
    checkNonneg (s.x rb)
    writeReg s.params rd (gcdValue (s.x ra) (s.x rb))) s

/-- The value MODINV writes, or NoInverseExists (R82). -/
def inverseValue (a m : Int) : Except ErrKind Int :=
  let r := modInvPair a m
  if r.1 = 1 then .ok (emod r.2 m) else .error .noInverseExists

/-- MODINV rd, ra, rm (R82). -/
def execModInv (rd ra rm : Reg) (s : State) : Host.Outcome State Fault Refusal :=
  complete (do
    checkMod (s.x rm)
    let v ← inverseValue (s.x ra) (s.x rm)
    writeReg s.params rd v) s

end Sys2Proof.Machine
end

