-- ==== Sys2Proof/Machine/Dispatch.lean ====
section
/-! DEFINITION. One arm per command: `exec i s` is the engine's completion of command `i` on state `s`
(spec 20_memory.md R43). -/

namespace Sys2Proof.Machine

def exec (i : Instr) (s : State) : Host.Outcome State Fault Refusal :=
  match i with
  | .ldi rd imm => Sys2Proof.Machine.execLdi rd imm s
  | .load rd => Sys2Proof.Machine.execLoad rd s
  | .store ra => Sys2Proof.Machine.execStore ra s
  | .add rd ra rb => Sys2Proof.Machine.execAdd rd ra rb s
  | .sub rd ra rb => Sys2Proof.Machine.execSub rd ra rb s
  | .mul rd ra rb => Sys2Proof.Machine.execMul rd ra rb s
  | .mod rd ra rm => Sys2Proof.Machine.execMod rd ra rm s
  | .cmp ra rb => Sys2Proof.Machine.execCmp ra rb s
  | .isEven ra => Sys2Proof.Machine.execIsEven ra s
  | .isZero ra => Sys2Proof.Machine.execIsZero ra s
  | .mulMod rd ra rb rm => Sys2Proof.Machine.execMulMod rd ra rb rm s
  | .modExp rd ra rb rm => Sys2Proof.Machine.execModExp rd ra rb rm s
  | .gcd rd ra rb => Sys2Proof.Machine.execGcd rd ra rb s
  | .modInv rd ra rm => Sys2Proof.Machine.execModInv rd ra rm s

end Sys2Proof.Machine
end

