-- ==== Sys2Proof/Machine/HostPort.lean ====
section
/-! DEFINITION. The host address space: its map, a host read, a host write and the actions of CTRL
(spec 20_memory.md R31 to R42). -/

namespace Sys2Proof.Machine

/-- What a host word address names (spec 20_memory.md R32). -/
inductive HostReg where
  | cmd
  | status
  | err
  | flags
  | ctrl
  | xsign
  | xlen
  | xlimb (i : Nat)
  | reserved
  deriving DecidableEq, Repr

/-- The address map (spec 20_memory.md R32). -/
def hostReg (p : Params) (a : Addr) : HostReg :=
  if a.toNat = 0x0000 then .cmd
  else if a.toNat = 0x0001 then .status
  else if a.toNat = 0x0002 then .err
  else if a.toNat = 0x0003 then .flags
  else if a.toNat = 0x0004 then .ctrl
  else if a.toNat = 0x0005 then .xsign
  else if a.toNat = 0x0006 then .xlen
  else if 0x1000 ≤ a.toNat ∧ a.toNat < 0x1000 + p.maxLimbs then .xlimb (a.toNat - 0x1000)
  else .reserved

/-- The word a host read returns: undefined bits, CTRL and reserved addresses read 0
(spec 10_state.md R17 to R23, 20_memory.md R34, R39, R41). -/
def hostRead (s : State) (a : Addr) : Word :=
  match hostReg s.params a with
  | .cmd => s.cmd.setWidth 64
  | .status => BitVec.ofNat 64 (statusValue s)
  | .err => BitVec.ofNat 64 (errValue s)
  | .flags => BitVec.ofNat 64 s.flags.value
  | .ctrl => 0
  | .xsign => BitVec.ofNat 64 s.xsign.toNat
  | .xlen => s.xlen.setWidth 64
  | .xlimb i => BitVec.ofNat 64 (s.limbAt i)
  | .reserved => 0

/-- The host's write to CTRL, in any phase: SRST before CLRERR; CLRERR only when BUSY = 0
(spec 20_memory.md R42, 10_state.md R21). -/
def ctrlWrite (v : Word) (s : State) : State :=
  if v.getLsbD 0 then resetMae s
  else if v.getLsbD 1 && !s.busy then acknowledge s
  else s

/-- The issue of a command: accepted only when ERR = 0 (spec 20_memory.md R40). -/
def issue (v : Word) (s : State) : State :=
  if s.err.isSome then s else { s with cmd := v.setWidth 32, busy := true }

/-- A host write when BUSY = 0 to an address other than CTRL (spec 20_memory.md R34, R40). -/
def idleWrite (a : Addr) (v : Word) (s : State) : State :=
  match hostReg s.params a with
  | .cmd => issue v s
  | .xsign => { s with xsign := v.getLsbD 0 }
  | .xlen => { s with xlen := v.setWidth 16 }
  | .xlimb i => { s with xlimb := s.xlimb.write i (v.toNat % 2 ^ s.params.limbBits) }
  | .status => s
  | .err => s
  | .flags => s
  | .ctrl => s
  | .reserved => s

/-- A host write: to CTRL in any phase; any other is dropped while BUSY = 1
(spec 20_memory.md R40 to R42). -/
def hostWrite (a : Addr) (v : Word) (s : State) : State :=
  if hostReg s.params a = .ctrl then ctrlWrite v s
  else if s.busy then s
  else idleWrite a v s

end Sys2Proof.Machine
end

