-- ==== Sys2Proof/Machine/Engine.lean ====
section
/-! DEFINITION. The engine's completion of the command in CMD, and what each event does
(spec 20_memory.md R40 to R44). -/

namespace Sys2Proof.Machine

/-- Complete the command word in CMD: an illegal word ends with IllegalCommand before any operand is read
(spec 20_memory.md R43, 30_encoding.md R55, 60_exceptions.md R91). -/
def runCommand (s : State) : Host.Outcome State Fault Refusal :=
  match decode s.cmd with
  | .ok i => exec i s
  | .error _ => .next (takeFault .illegalCommand s)

/-- The engine's turn: its one step, the completion, is enabled exactly when BUSY = 1
(spec 20_memory.md R43). -/
def engineTurn (s : State) : Host.Outcome State Fault Refusal :=
  if s.busy then runCommand s else .next s

/-- One atomic step of the host or the engine (spec 20_memory.md R44). A read leaves the MAE alone (R48) and
adds the word it returned to the host's replies. -/
def perform (e : Event) (s : State) : Host.Outcome State Fault Refusal :=
  match e with
  | .read a => .next { s with replies := hostRead s a :: s.replies }
  | .write a v => .next (hostWrite a v s)
  | .hardReset => .next (resetMae s)
  | .engine => engineTurn s

/-- The next step: the script's first event; with an empty script, the engine's turn, so that every issued
command completes (spec 70_reset_and_hazards.md R113, R116; log entry 2). -/
def takeTurn (s : State) : Host.Outcome State Fault Refusal :=
  match s.script with
  | [] => engineTurn s
  | e :: rest => perform e { s with script := rest }

/-- A command word brought to where the engine takes its next command from: in CMD, issued, and the engine's
turn next (log entry 9). -/
def withCommand (s : State) (w : CmdWord) : State :=
  { s with cmd := w, busy := true, err := none, script := .engine :: s.script }

end Sys2Proof.Machine
end

