-- ==== Sys2Proof/Safety.lean ====
section
/-! DEFINITION. What the claims call a good state and a good run (spec 10_state.md R30). -/

namespace Sys2Proof.Machine

/-- Every BigInt register is within capacity (spec 10_state.md R14, R30 (a)). -/
abbrev State.RegsFit (s : State) : Prop := ∀ r : Reg, (s.x r).natAbs < 2 ^ s.params.capacity

/-- BUSY = 1 implies ERR = 0 (spec 10_state.md R30 (b)). -/
abbrev State.BusyClean (s : State) : Prop := s.busy = true → s.err = none

/-- (LT, EQ, GT) is (0,0,0) or has exactly one 1 (spec 10_state.md R30 (c)). -/
abbrev Flags.OneHot (f : Flags) : Prop := f.lt.toNat + f.eq.toNat + f.gt.toNat ≤ 1

/-- The invariants of every reachable state (spec 10_state.md R30), with the canonical form of the limbs. R30 (d)
and (e) hold by the types of ERR, XLEN and XSIGN. -/
structure State.Inv (s : State) : Prop where
  regsFit : s.RegsFit
  xlimbWf : Memory.wf s.params s.xlimb
  busyClean : s.BusyClean
  flagsOneHot : s.flags.OneHot

/-- The states a run from `s` can reach. -/
inductive Reaches : State → State → Prop where
  | refl (s : State) : Reaches s s
  | tail {s t u : State} : Reaches s t → step t = .next u → Reaches s u

/-- A state in which the next step does not stop. -/
def State.Live (s : State) : Prop := ∃ t, step s = .next t

end Sys2Proof.Machine
end

