-- ==== Sys2Proof/Certificates/Slice0/Obligations.lean ====
section
/-! DEFINITION. What is claimed of the MAE. Each docstring names the rule of spec/ it formalises. Where a statement
speaks of `script` or `replies`, or of the very next step, it uses the model's own scheduling data (log entries 2, 3). -/

open Sys2Proof Sys2Proof.Machine

/-! ## Encoding -/

/-- The worked words of spec 30_encoding.md R59, the illegal words of R60 and those of vector V31 (a sanity statement). -/
def Obligations.WorkedWordsDecode : Prop :=
  decodeTableWord 32 0x01100025 = some (.ldi 1 37) ∧ decodeTableWord 32 0x01810001 = some (.ldi 8 65537) ∧
  decodeTableWord 32 0x02200000 = some (.load 2) ∧ decodeTableWord 32 0x030C0000 = some (.store 12) ∧
  decodeTableWord 32 0x10312000 = some (.add 3 1 2) ∧ decodeTableWord 32 0x11513000 = some (.sub 5 1 3) ∧
  decodeTableWord 32 0x12412000 = some (.mul 4 1 2) ∧ decodeTableWord 32 0x13640700 = some (.mod 6 4 7) ∧
  decodeTableWord 32 0x1409A000 = some (.cmp 9 10) ∧ decodeTableWord 32 0x15050000 = some (.isEven 5) ∧
  decodeTableWord 32 0x16000000 = some (.isZero 0) ∧ decodeTableWord 32 0x20123400 = some (.mulMod 1 2 3 4) ∧
  decodeTableWord 32 0x21438900 = some (.modExp 4 3 8 9) ∧ decodeTableWord 32 0x22987000 = some (.gcd 9 8 7) ∧
  decodeTableWord 32 0x23C80700 = some (.modInv 12 8 7) ∧
  ∀ w ∈ [0x00000000, 0x10312001, 0x10312100, 0x13641700, 0x02210000, 0x14190000, 0x24000000, 0xFFFFFFFF,
    0x02100001, 0x0210F000, 0x03000100, 0x14100000, 0x15061000, 0x22312400, 0x13312200, 0x23F0F000,
    0x04000000, 0x2F000000], decodeTableWord 32 w = none

/-- Decoding the word of a well-formed command gives the command back, at every value of every operand
(spec 30_encoding.md R50 to R54, R59). -/
def Obligations.DecodeOfEncode : Prop :=
  ∀ i : Instr, WellFormed i = true → decode (encode i) = .ok i

/-- A word that decodes has no bit the command does not say: it is the command's one word, and the command is
well formed (spec 30_encoding.md R54 to R56). -/
def Obligations.EncodeOfDecode : Prop :=
  ∀ (w : CmdWord) (i : Instr), decode w = .ok i → encode i = w ∧ WellFormed i = true

/-- Spec 30_encoding.md R53, match and mask columns: a word is a row's command exactly when `w AND mask = match`,
and then its bits 31:24 are the row's opcode. -/
def Obligations.DecodeAgreesWithTheOpcodeTable : Prop :=
  ∀ row ∈ opcodeTable, ∀ w : CmdWord,
    (w &&& row.mask = row.pattern ↔ ∃ i, decode w = .ok i ∧ mnemonicOf i = row.mnemonic) ∧
    (w &&& row.mask = row.pattern → w.toNat / 2 ^ 24 = row.op)

/-- Spec 30_encoding.md R56: no word matches two rows. -/
def Obligations.OpcodeRowsAreExclusive : Prop :=
  ∀ r₁ ∈ opcodeTable, ∀ r₂ ∈ opcodeTable, ∀ w : CmdWord,
    w &&& r₁.mask = r₁.pattern → w &&& r₂.mask = r₂.pattern → r₁ = r₂

/-- Spec 30_encoding.md R55: a word that matches no row is accepted into CMD like any word, and its completion is the
fault IllegalCommand and changes nothing else; the opcode map leaves 242 opcodes unassigned. -/
def Obligations.IllegalWordsFault : Prop :=
  (∀ (s : State) (rest : List Event), s.busy = true →
    (∀ row ∈ opcodeTable, s.cmd &&& row.mask ≠ row.pattern) →
    step { s with script := .engine :: rest } =
      .next { s with script := rest, err := some .illegalCommand, busy := false }) ∧
  (∀ (s : State) (v : Word) (rest : List Event), s.busy = false → s.err = none →
    (∀ row ∈ opcodeTable, v.setWidth 32 &&& row.mask ≠ row.pattern) →
    step { s with script := .write 0x0000 v :: rest } =
      .next { s with script := rest, cmd := v.setWidth 32, busy := true }) ∧
  ((List.range 256).filter fun op => opcodeTable.all fun r => r.op != op).length = 242

/-! ## The engine and the host -/

/-- When BUSY = 1 and CMD decodes to a command, the engine's step is that command's completion and nothing else is
added around it, whether the script gives the engine its turn or is empty (spec 20_memory.md R43; the script is the
model's, log entry 2). -/
def Obligations.StepRunsTheDecodedCommand : Prop :=
  ∀ (s : State) (i : Instr) (rest : List Event), s.busy = true → decode s.cmd = .ok i →
    step { s with script := .engine :: rest } = exec i { s with script := rest } ∧
    step { s with script := [] } = exec i { s with script := [] }

/-- Every state has a next state: no host access stops the machine and every command completes
(spec 20_memory.md R43, 41_modular.md R85, 60_exceptions.md R87). -/
def Obligations.StepNeverStops : Prop := ∀ s : State, s.Live

/-- Spec 20_memory.md R40: host writes while BUSY = 0. A write to CMD issues the command when ERR = 0 and is dropped
otherwise; buffer writes are accepted whatever ERR is. -/
def Obligations.HostWritesWhileIdle : Prop :=
  ∀ (s : State) (v : Word) (rest : List Event), s.busy = false →
    (s.err = none → step { s with script := .write 0x0000 v :: rest } =
      .next { s with script := rest, cmd := v.extractLsb' 0 32, busy := true }) ∧
    (s.err ≠ none → step { s with script := .write 0x0000 v :: rest } = .next { s with script := rest }) ∧
    (step { s with script := .write 0x0005 v :: rest } =
      .next { s with script := rest, xsign := v.getLsbD 0 }) ∧
    (step { s with script := .write 0x0006 v :: rest } =
      .next { s with script := rest, xlen := v.extractLsb' 0 16 }) ∧
    (Memory.wf s.params s.xlimb → ∀ i, i < s.params.maxLimbs →
      ∃ t, step { s with script := .write (BitVec.ofNat 13 (0x1000 + i)) v :: rest } = .next t ∧
        t.limbAt i = v.toNat % 2 ^ s.params.limbBits ∧ (∀ j, j ≠ i → t.limbAt j = s.limbAt j) ∧
        { t with xlimb := s.xlimb } = { s with script := rest })

/-- Spec 20_memory.md R41: while BUSY = 1 every write except one to CTRL is dropped, every read is served, and apart
from CMD and STATUS it returns what it returned before the issue. -/
def Obligations.HostAccessesWhileBusy : Prop :=
  ∀ (s : State) (a : Addr) (rest : List Event),
    (s.busy = true → ∀ v : Word, a ≠ 0x0004 →
      step { s with script := .write a v :: rest } = .next { s with script := rest }) ∧
    (s.busy = true → step { s with script := .read a :: rest } =
      .next { s with script := rest, replies := hostRead s a :: s.replies }) ∧
    (∀ w : CmdWord, a ≠ 0x0000 → a ≠ 0x0001 → hostRead { s with cmd := w, busy := true } a = hostRead s a) ∧
    (s.busy = true → (hostRead s 0x0001).getLsbD 0 = true)

/-- Spec 20_memory.md R42: a write to CTRL, in any phase: reset if bit 0 is 1; else acknowledge if bit 1 is 1 and
BUSY = 0; else nothing. -/
def Obligations.HostWritesToCtrl : Prop :=
  ∀ (s : State) (v : Word) (rest : List Event),
    (v.getLsbD 0 = true → step { s with script := .write 0x0004 v :: rest } =
      .next { State.resetOf s.params with script := rest, replies := s.replies }) ∧
    (v.getLsbD 0 = false → v.getLsbD 1 = true → s.busy = false →
      step { s with script := .write 0x0004 v :: rest } = .next { s with script := rest, err := none }) ∧
    (v.getLsbD 0 = false → (v.getLsbD 1 = false ∨ s.busy = true) →
      step { s with script := .write 0x0004 v :: rest } = .next { s with script := rest })

/-- What each register of the host address space reads as (spec 10_state.md R17 to R23, 20_memory.md R32, with the
codes of 60_exceptions.md R88). -/
def Obligations.HostReadsFollowTheMap : Prop :=
  ∀ s : State, Memory.wf s.params s.xlimb →
    (hostRead s 0x0000).toNat = s.cmd.toNat ∧
    (hostRead s 0x0001).toNat = (if s.busy then 1 else 0) + (if s.err = none then 0 else 2) ∧
    (s.err = none → (hostRead s 0x0002).toNat = 0) ∧
    (s.err = some .divisionByZero → (hostRead s 0x0002).toNat = 1) ∧
    (s.err = some .noInverseExists → (hostRead s 0x0002).toNat = 2) ∧
    (s.err = some .invalidOperand → (hostRead s 0x0002).toNat = 3) ∧
    (s.err = some .overflow → (hostRead s 0x0002).toNat = 4) ∧
    (s.err = some .illegalCommand → (hostRead s 0x0002).toNat = 5) ∧
    (hostRead s 0x0003).toNat = (if s.flags.lt then 1 else 0) + (if s.flags.eq then 2 else 0) +
      (if s.flags.gt then 4 else 0) + (if s.flags.even then 8 else 0) + (if s.flags.zero then 16 else 0) ∧
    (hostRead s 0x0005).toNat = (if s.xsign then 1 else 0) ∧
    (hostRead s 0x0006).toNat = s.xlen.toNat ∧
    ∀ i, i < s.params.maxLimbs → (hostRead s (BitVec.ofNat 13 (0x1000 + i))).toNat = s.limbAt i

/-- Spec 20_memory.md R34: reserved addresses and CTRL read 0; a write to a reserved address or to STATUS, ERR or FLAGS
is ignored, and so are the bits a register does not define; none of these is a fault. -/
def Obligations.ReservedAndReadOnlyAccesses : Prop :=
  ∀ (s : State) (a : Addr) (rest : List Event),
    ((0x0007 ≤ a.toNat ∧ a.toNat < 0x1000) ∨ 0x1000 + s.params.maxLimbs ≤ a.toNat → hostRead s a = 0) ∧
    hostRead s 0x0004 = 0 ∧
    ((0x0007 ≤ a.toNat ∧ a.toNat < 0x1000) ∨ 0x1000 + s.params.maxLimbs ≤ a.toNat ∨
        a = 0x0001 ∨ a = 0x0002 ∨ a = 0x0003 →
      ∀ v : Word, step { s with script := .write a v :: rest } = .next { s with script := rest }) ∧
    (∀ r ∈ [((0x0000 : Addr), 32), (0x0004, 2), (0x0005, 1), (0x0006, 16)], ∀ v w : Word,
      (∀ b, b < r.2 → v.getLsbD b = w.getLsbD b) →
      step { s with script := .write r.1 v :: rest } = step { s with script := .write r.1 w :: rest })

/-- Spec 20_memory.md R48, first sentence: a read changes nothing (but the host's own record of it), so reading an
address twice with no step between returns the same word twice. -/
def Obligations.HostReadsHaveNoSideEffect : Prop :=
  ∀ (s : State) (a : Addr) (rest : List Event),
    Sys2Proof.core.run 1 { s with script := .read a :: rest } =
      .next { s with script := rest, replies := hostRead s a :: s.replies } ∧
    Sys2Proof.core.run 2 { s with script := .read a :: .read a :: rest } =
      .next { s with script := rest, replies := hostRead s a :: hostRead s a :: s.replies }

/-- A limb the host writes while BUSY = 0 is what a read of its address then returns, and no other address reads
differently (spec 20_memory.md R40, R44). -/
def Obligations.LimbWriteReadsBack : Prop :=
  ∀ (s t : State) (v : Word) (i : Nat) (rest : List Event), s.busy = false → Memory.wf s.params s.xlimb →
    i < s.params.maxLimbs →
    step { s with script := .write (BitVec.ofNat 13 (0x1000 + i)) v :: rest } = .next t →
    (hostRead t (BitVec.ofNat 13 (0x1000 + i))).toNat = v.toNat % 2 ^ s.params.limbBits ∧
    ∀ a : Addr, a ≠ BitVec.ofNat 13 (0x1000 + i) → hostRead t a = hostRead s a

/-- While BUSY = 1 any number of host reads and writes, none of them to CTRL, leaves everything but the host's own
record as it is, so the completion does not depend on them (spec 20_memory.md R41, R43; 93_implementation_defined.md
U12). -/
def Obligations.HostTrafficWhileBusyIsInvisible : Prop :=
  ∀ (s : State) (traffic rest : List Event), s.busy = true →
    (∀ e ∈ traffic, (∃ a, e = .read a) ∨ ∃ a v, e = .write a v ∧ a ≠ 0x0004) →
    ∃ replies, Sys2Proof.core.run traffic.length { s with script := traffic ++ rest } =
      .next { s with script := rest, replies := replies ++ s.replies }

/-- Spec 70_reset_and_hazards.md R113: from BUSY = 1, with no reset among the events to come, the completion of the
command in CMD happens, on a state that is this one but for the host's side, and BUSY falls. That an empty script
gives the engine its turn is the model's choice (log entry 2). -/
def Obligations.EveryIssuedCommandCompletes : Prop :=
  ∀ s : State, s.busy = true →
    (∀ e ∈ s.script, e ≠ .hardReset ∧ ∀ v, e = .write 0x0004 v → v.getLsbD 0 = false) →
    ∃ (n : Nat) (t : State) (rest : List Event) (replies : List Word),
      Sys2Proof.core.run n s = .next t ∧
      runCommand { s with script := rest, replies := replies } = .next t ∧ t.busy = false

/-- A step takes at most the first event off the script, leaves the parameters alone, and records a word exactly when
it is a host read (the model's own bookkeeping, log entries 1 to 4). -/
def Obligations.StepKeepsParametersAndScript : Prop :=
  ∀ s t : State, step s = .next t →
    t.params = s.params ∧ t.script = s.script.tail ∧
    (∀ a, s.script.head? = some (.read a) → t.replies = hostRead s a :: s.replies) ∧
    ((∀ a, s.script.head? ≠ some (.read a)) → t.replies = s.replies)

/-! ## Invariants, phases and reset -/

/-- Spec 10_state.md R28 and 70_reset_and_hazards.md R103, R104: the hardware reset event and CTRL.SRST put every
piece of state at its reset value, from any state. -/
def Obligations.ResetValues : Prop :=
  ∀ (s : State) (v : Word) (rest : List Event) (e : Event), v.getLsbD 0 = true →
    e = .hardReset ∨ e = .write 0x0004 v →
    ∃ t, step { s with script := e :: rest } = .next t ∧ (∀ r, t.x r = 0) ∧ t.cmd = 0x00000000 ∧
      t.busy = false ∧ t.err = none ∧ t.flags = ⟨false, false, false, false, false⟩ ∧ t.xsign = false ∧
      t.xlen.toNat = 1 ∧ (∀ i, t.limbAt i = 0) ∧ t.phase = .idle ∧ t.params = s.params ∧ t.script = rest

/-- Spec 70_reset_and_hazards.md R105: a reset while a command is in flight aborts it: the engine's next turn does
nothing, and every register and buffer limb is at its reset value, so no effect of the command appears. -/
def Obligations.ResetAbortsTheCommand : Prop :=
  ∀ (s : State) (v : Word) (rest : List Event) (e : Event), s.busy = true → v.getLsbD 0 = true →
    e = .hardReset ∨ e = .write 0x0004 v →
    Sys2Proof.core.run 2 { s with script := e :: .engine :: rest } =
      .next { State.resetOf s.params with script := rest, replies := s.replies }

/-- The invariants of spec 10_state.md R30 hold right after reset, whatever the parameters. -/
def Obligations.ResetMeetsTheInvariants : Prop := ∀ p : Params, (State.resetOf p).Inv

/-- Every step keeps the invariants of spec 10_state.md R30 and the canonical form of the limbs, from every state that
meets them. -/
def Obligations.StepKeepsTheInvariants : Prop :=
  ∀ s t : State, s.Inv → step s = .next t → t.Inv

/-- Spec 10_state.md R30, of every reachable state, whatever the host does: (a) registers within capacity,
(b) BUSY = 1 implies ERR = 0, (c) the compare flags are (0,0,0) or have exactly one 1, (d) ERR is in 0..5,
(e) XLEN < 2^16 and XSIGN < 2. -/
def Obligations.ReachableStatesMeetTheInvariants : Prop :=
  ∀ (p : Params) (script : List Event) (s : State), Reaches { State.resetOf p with script := script } s →
    (∀ r, (s.x r).natAbs < 2 ^ (s.params.limbBits * s.params.maxLimbs)) ∧
    (s.busy = true → s.err = none) ∧
    ((s.flags.lt = false ∧ s.flags.eq = false ∧ s.flags.gt = false) ∨
      (s.flags.lt = true ∧ s.flags.eq = false ∧ s.flags.gt = false) ∨
      (s.flags.lt = false ∧ s.flags.eq = true ∧ s.flags.gt = false) ∨
      (s.flags.lt = false ∧ s.flags.eq = false ∧ s.flags.gt = true)) ∧
    (hostRead s 0x0002).toNat ≤ 5 ∧ (hostRead s 0x0006).toNat < 2 ^ 16 ∧ (hostRead s 0x0005).toNat < 2

/-- Spec 10_state.md R27: the phase changes only as the rule lists: IDLE to BUSY by an issue; BUSY to IDLE by a
completion without error or a reset; BUSY to FAULT by a completion with error; FAULT to IDLE by an acknowledge or a
reset. -/
def Obligations.PhaseTransitions : Prop :=
  ∀ s t : State, s.Inv → step s = .next t →
    (s.phase = .idle → t.phase = .idle ∨
      (t.phase = .busy ∧ ∃ v rest, s.script = .write 0x0000 v :: rest)) ∧
    (s.phase = .busy → t.phase = .busy ∨
      (t.phase = .idle ∧ t.err = none ∧ (s.script = [] ∨ ∃ rest, s.script = .engine :: rest)) ∨
      (t.phase = .idle ∧ ∃ rest, s.script = .hardReset :: rest ∨
        ∃ v, s.script = .write 0x0004 v :: rest ∧ v.getLsbD 0 = true) ∨
      (t.phase = .fault ∧ t.err ≠ none ∧ (s.script = [] ∨ ∃ rest, s.script = .engine :: rest))) ∧
    (s.phase = .fault → t.phase = .fault ∨
      (t.phase = .idle ∧ ∃ rest, s.script = .hardReset :: rest ∨
        ∃ v, s.script = .write 0x0004 v :: rest ∧ (v.getLsbD 0 = true ∨ v.getLsbD 1 = true)))

/-! ## Faults -/

/-- Spec 60_exceptions.md R92: a command that ends with an error kind changes ERR and BUSY and nothing else, and
STATUS.FAULT reads 1 from then on. -/
def Obligations.FaultEntryChangesNothingElse : Prop :=
  ∀ (s t : State) (i : Instr), s.err = none → exec i s = .next t → t.err ≠ none →
    t = { s with err := t.err, busy := false } ∧ (hostRead t 0x0001).getLsbD 1 = true

/-- Spec 60_exceptions.md R90: the error kinds each command can end with, complete, on every state that meets the
invariants. -/
def Obligations.FaultsPerCommand : Prop :=
  (∀ (s t : State) (i : Instr), s.Inv → s.err = none → WellFormed i = true → exec i s = .next t →
    match i with
    | .ldi _ _ => t.err = none
    | .load _ => t.err ∈ [none, some .invalidOperand]
    | .store _ => t.err = none
    | .add _ _ _ => t.err ∈ [none, some .overflow]
    | .sub _ _ _ => t.err ∈ [none, some .overflow]
    | .mul _ _ _ => t.err ∈ [none, some .overflow]
    | .mod _ _ _ => t.err ∈ [none, some .divisionByZero, some .invalidOperand]
    | .cmp _ _ => t.err = none
    | .isEven _ => t.err = none
    | .isZero _ => t.err = none
    | .mulMod _ _ _ _ => t.err ∈ [none, some .divisionByZero, some .invalidOperand]
    | .modExp _ _ _ _ => t.err ∈ [none, some .divisionByZero, some .invalidOperand]
    | .gcd _ _ _ => t.err ∈ [none, some .invalidOperand]
    | .modInv _ _ _ => t.err ∈ [none, some .divisionByZero, some .invalidOperand, some .noInverseExists]) ∧
  (∀ (s t : State), (∀ i, decode s.cmd ≠ .ok i) → runCommand s = .next t → t.err = some .illegalCommand)

/-- Spec 60_exceptions.md R91: the order in which a command's tests report: an illegal word before any operand; a zero
modulus before everything else; then the operands outside their domain; then the missing inverse; then Overflow. -/
def Obligations.FaultPriority : Prop :=
  ∀ (s : State) (rd ra rb rm : Reg),
    ((∀ i, decode s.cmd ≠ .ok i) →
      runCommand s = .next { s with err := some .illegalCommand, busy := false }) ∧
    (∀ i ∈ [Instr.mod rd ra rm, .mulMod rd ra rb rm, .modExp rd ra rb rm, .modInv rd ra rm],
      (s.x rm = 0 → exec i s = .next { s with err := some .divisionByZero, busy := false }) ∧
      (s.x rm < 0 → exec i s = .next { s with err := some .invalidOperand, busy := false })) ∧
    (0 < s.x rm → s.x rb < 0 →
      exec (.modExp rd ra rb rm) s = .next { s with err := some .invalidOperand, busy := false }) ∧
    (s.x ra < 0 ∨ s.x rb < 0 →
      exec (.gcd rd ra rb) s = .next { s with err := some .invalidOperand, busy := false }) ∧
    (s.params.maxLimbs < s.xlen.toNat →
      exec (.load rd) s = .next { s with err := some .invalidOperand, busy := false }) ∧
    (0 < s.x rm → Int.gcd (s.x ra) (s.x rm) ≠ 1 →
      exec (.modInv rd ra rm) s = .next { s with err := some .noInverseExists, busy := false }) ∧
    (∀ c ∈ [(Instr.add rd ra rb, s.x ra + s.x rb), (.sub rd ra rb, s.x ra - s.x rb),
        (.mul rd ra rb, s.x ra * s.x rb)], 2 ^ (s.params.limbBits * s.params.maxLimbs) ≤ c.2.natAbs →
      exec c.1 s = .next { s with err := some .overflow, busy := false })

/-- Spec 60_exceptions.md R94: the acknowledge clears ERR, STATUS.FAULT reads 0, the phase is IDLE, everything else is
as the fault left it, and the next write to CMD is accepted. -/
def Obligations.AcknowledgeReturnsToIdle : Prop :=
  ∀ (s : State) (v w : Word) (rest : List Event), s.busy = false → s.err ≠ none →
    v.getLsbD 0 = false → v.getLsbD 1 = true →
    ∃ t, step { s with script := .write 0x0004 v :: .write 0x0000 w :: rest } = .next t ∧
      t = { s with err := none, script := .write 0x0000 w :: rest } ∧
      (hostRead t 0x0001).getLsbD 1 = false ∧ t.phase = .idle ∧
      step t = .next { s with err := none, script := rest, cmd := w.extractLsb' 0 32, busy := true }

/-! ## Numbers -/

/-- Spec 10_state.md R14: sign, limb count and limbs are a canonical form: the limbs weigh up to the magnitude, the top
limb of a form longer than one limb is not 0, zero is sign 0 and one limb 0, a count of at most L is the capacity
bound, and the form is unique per value. -/
def Obligations.CanonicalForm : Prop :=
  ∀ (p : Params) (v : Int),
    (v.natAbs : Int) = ∑ i ∈ Finset.range (nlimbs p.limbBits v), (limb p.limbBits v i : Int) * 2 ^ (p.limbBits * i) ∧
    1 ≤ nlimbs p.limbBits v ∧
    (nlimbs p.limbBits v = 1 ∨ limb p.limbBits v (nlimbs p.limbBits v - 1) ≠ 0) ∧
    (∀ i, limb p.limbBits v i < 2 ^ p.limbBits) ∧
    (v = 0 → sgn v = false ∧ nlimbs p.limbBits v = 1 ∧ limb p.limbBits v 0 = 0) ∧
    (nlimbs p.limbBits v ≤ p.maxLimbs ↔ v.natAbs < 2 ^ (p.limbBits * p.maxLimbs)) ∧
    v = (if sgn v then -1 else 1) * (v.natAbs : Int) ∧
    ∀ (sign : Bool) (len : Nat) (f : Nat → Nat), 1 ≤ len → (∀ i, f i < 2 ^ p.limbBits) →
      (len = 1 ∨ f (len - 1) ≠ 0) → (v = 0 → sign = false) →
      v = (if sign then -1 else 1) * ∑ i ∈ Finset.range len, (f i : Int) * 2 ^ (p.limbBits * i) →
      sign = sgn v ∧ len = nlimbs p.limbBits v ∧ ∀ i, i < len → f i = limb p.limbBits v i

/-! ## BigInt commands -/

/-- Spec 40_bigint.md R62, LDI. -/
def Obligations.LdiWritesItsImmediate : Prop :=
  ∀ (s : State) (rd : Reg) (imm : Nat), imm < 2 ^ 20 →
    decode (BitVec.ofNat 32 (0x01 * 2 ^ 24 + rd.val * 2 ^ 20 + imm)) = .ok (.ldi rd imm) ∧
    exec (.ldi rd imm) s = .next { s with regs := s.regs.set rd (imm : Int), busy := false }

/-- Spec 40_bigint.md R63, LOAD: the value of the transfer buffer, or InvalidOperand when XLEN > L. -/
def Obligations.LoadWritesTheBufferValue : Prop :=
  ∀ (s : State) (rd : Reg), Memory.wf s.params s.xlimb →
    decode (BitVec.ofNat 32 (0x02 * 2 ^ 24 + rd.val * 2 ^ 20)) = .ok (.load rd) ∧
    (s.xlen.toNat ≤ s.params.maxLimbs → exec (.load rd) s =
      .next { s with
        regs := s.regs.set rd ((if s.xsign then -1 else 1) *
          ∑ i ∈ Finset.range s.xlen.toNat, (s.limbAt i : Int) * 2 ^ (s.params.limbBits * i))
        busy := false }) ∧
    (s.params.maxLimbs < s.xlen.toNat →
      exec (.load rd) s = .next { s with err := some .invalidOperand, busy := false })

/-- Spec 40_bigint.md R64, STORE: the transfer buffer becomes the canonical image of the register, zero-filled, and
nothing else changes. -/
def Obligations.StoreWritesTheImage : Prop :=
  ∀ (s : State) (ra : Reg), s.RegsFit →
    decode (BitVec.ofNat 32 (0x03 * 2 ^ 24 + ra.val * 2 ^ 16)) = .ok (.store ra) ∧
    ∃ t, exec (.store ra) s = .next t ∧ t.xsign = decide (s.x ra < 0) ∧
      t.xlen.toNat = nlimbs s.params.limbBits (s.x ra) ∧
      (∀ i, i < s.params.maxLimbs → t.limbAt i = if i < nlimbs s.params.limbBits (s.x ra) then
        (s.x ra).natAbs / 2 ^ (s.params.limbBits * i) % 2 ^ s.params.limbBits else 0) ∧
      Memory.wf t.params t.xlimb ∧
      { t with xsign := s.xsign, xlen := s.xlen, xlimb := s.xlimb } = { s with busy := false }

/-- Spec 20_memory.md R38, last two sentences: after a STORE the whole buffer is a function of the stored value alone,
and a STORE followed by a LOAD reproduces the value. -/
def Obligations.StoreThenLoadReproducesTheValue : Prop :=
  (∀ (s s' t t' : State) (ra ra' : Reg), s.params = s'.params → s.x ra = s'.x ra' →
    exec (.store ra) s = .next t → exec (.store ra') s' = .next t' →
    t.xsign = t'.xsign ∧ t.xlen = t'.xlen ∧ t.xlimb = t'.xlimb) ∧
  (∀ (s : State) (rd ra : Reg), s.RegsFit →
    ∃ t u, exec (.store ra) s = .next t ∧ exec (.load rd) t = .next u ∧ u.x rd = s.x ra ∧
      ∀ r, r ≠ rd → u.x r = s.x r)

/-- Spec 40_bigint.md R65, ADD. -/
def Obligations.AddIsExact : Prop :=
  ∀ (s : State) (rd ra rb : Reg),
    decode (BitVec.ofNat 32 (0x10 * 2 ^ 24 + rd.val * 2 ^ 20 + ra.val * 2 ^ 16 + rb.val * 2 ^ 12)) =
      .ok (.add rd ra rb) ∧
    ((s.x ra + s.x rb).natAbs < 2 ^ (s.params.limbBits * s.params.maxLimbs) → exec (.add rd ra rb) s =
      .next { s with regs := s.regs.set rd (s.x ra + s.x rb), busy := false }) ∧
    (2 ^ (s.params.limbBits * s.params.maxLimbs) ≤ (s.x ra + s.x rb).natAbs → exec (.add rd ra rb) s =
      .next { s with err := some .overflow, busy := false })

/-- Spec 40_bigint.md R66, SUB, with the corner case that Overflow needs operands of opposite signs. -/
def Obligations.SubIsExact : Prop :=
  ∀ (s : State) (rd ra rb : Reg),
    decode (BitVec.ofNat 32 (0x11 * 2 ^ 24 + rd.val * 2 ^ 20 + ra.val * 2 ^ 16 + rb.val * 2 ^ 12)) =
      .ok (.sub rd ra rb) ∧
    ((s.x ra - s.x rb).natAbs < 2 ^ (s.params.limbBits * s.params.maxLimbs) → exec (.sub rd ra rb) s =
      .next { s with regs := s.regs.set rd (s.x ra - s.x rb), busy := false }) ∧
    (2 ^ (s.params.limbBits * s.params.maxLimbs) ≤ (s.x ra - s.x rb).natAbs → exec (.sub rd ra rb) s =
      .next { s with err := some .overflow, busy := false }) ∧
    (s.RegsFit → (0 ≤ s.x ra ∧ 0 ≤ s.x rb) ∨ (s.x ra < 0 ∧ s.x rb < 0) → exec (.sub rd ra rb) s =
      .next { s with regs := s.regs.set rd (s.x ra - s.x rb), busy := false })

/-- Spec 40_bigint.md R67, MUL. -/
def Obligations.MulIsExact : Prop :=
  ∀ (s : State) (rd ra rb : Reg),
    decode (BitVec.ofNat 32 (0x12 * 2 ^ 24 + rd.val * 2 ^ 20 + ra.val * 2 ^ 16 + rb.val * 2 ^ 12)) =
      .ok (.mul rd ra rb) ∧
    ((s.x ra * s.x rb).natAbs < 2 ^ (s.params.limbBits * s.params.maxLimbs) → exec (.mul rd ra rb) s =
      .next { s with regs := s.regs.set rd (s.x ra * s.x rb), busy := false }) ∧
    (2 ^ (s.params.limbBits * s.params.maxLimbs) ≤ (s.x ra * s.x rb).natAbs → exec (.mul rd ra rb) s =
      .next { s with err := some .overflow, busy := false }) ∧
    (s.x ra ≠ 0 → s.x rb ≠ 0 →
      nlimbs s.params.limbBits (s.x ra * s.x rb) ≤
        nlimbs s.params.limbBits (s.x ra) + nlimbs s.params.limbBits (s.x rb) ∧
      nlimbs s.params.limbBits (s.x ra) + nlimbs s.params.limbBits (s.x rb) ≤
        nlimbs s.params.limbBits (s.x ra * s.x rb) + 1)

/-- Spec 40_bigint.md R68, MOD: the floor remainder, in [0, m) at every sign of the dividend; a zero modulus is
DivisionByZero and a negative one InvalidOperand. -/
def Obligations.ModIsTheFloorRemainder : Prop :=
  ∀ (s : State) (rd ra rm : Reg), s.RegsFit →
    decode (BitVec.ofNat 32 (0x13 * 2 ^ 24 + rd.val * 2 ^ 20 + ra.val * 2 ^ 16 + rm.val * 2 ^ 8)) =
      .ok (.mod rd ra rm) ∧
    (0 < s.x rm → ∃ q r : Int, s.x ra = q * s.x rm + r ∧ 0 ≤ r ∧ r < s.x rm ∧
      exec (.mod rd ra rm) s = .next { s with regs := s.regs.set rd r, busy := false }) ∧
    (s.x rm = 0 → exec (.mod rd ra rm) s = .next { s with err := some .divisionByZero, busy := false }) ∧
    (s.x rm < 0 → exec (.mod rd ra rm) s = .next { s with err := some .invalidOperand, busy := false })

/-- Spec 40_bigint.md R69, CMP. -/
def Obligations.CmpWritesTheCompareFlags : Prop :=
  ∀ (s : State) (ra rb : Reg),
    decode (BitVec.ofNat 32 (0x14 * 2 ^ 24 + ra.val * 2 ^ 16 + rb.val * 2 ^ 12)) = .ok (.cmp ra rb) ∧
    exec (.cmp ra rb) s = .next { s with
      flags := ⟨decide (s.x ra < s.x rb), decide (s.x ra = s.x rb), decide (s.x rb < s.x ra),
        s.flags.even, s.flags.zero⟩
      busy := false }

/-- Spec 40_bigint.md R70, ISEVEN: the parity of the value, negative values included. -/
def Obligations.IsEvenWritesTheParity : Prop :=
  ∀ (s : State) (ra : Reg),
    decode (BitVec.ofNat 32 (0x15 * 2 ^ 24 + ra.val * 2 ^ 16)) = .ok (.isEven ra) ∧
    exec (.isEven ra) s = .next { s with flags := { s.flags with even := decide (2 ∣ s.x ra) }, busy := false } ∧
    decide (2 ∣ s.x ra) = decide ((s.x ra).natAbs % 2 ^ s.params.limbBits % 2 = 0)

/-- Spec 40_bigint.md R71, ISZERO. -/
def Obligations.IsZeroWritesTheZeroFlag : Prop :=
  ∀ (s : State) (ra : Reg),
    decode (BitVec.ofNat 32 (0x16 * 2 ^ 24 + ra.val * 2 ^ 16)) = .ok (.isZero ra) ∧
    exec (.isZero ra) s = .next { s with flags := { s.flags with zero := decide (s.x ra = 0) }, busy := false }

/-- Spec 40_bigint.md R73: the result of MOD is in [0, m); ISEVEN agrees with MOD by 2; CMP is consistent with SUB. -/
def Obligations.TestsAgreeWithArithmetic : Prop :=
  ∀ (s : State) (rd ra rb rm : Reg), s.RegsFit →
    (0 < s.x rm → ∃ t, exec (.mod rd ra rm) s = .next t ∧ 0 ≤ t.x rd ∧ t.x rd < s.x rm) ∧
    (s.x rm = 2 → ∃ t u, exec (.isEven ra) s = .next t ∧ exec (.mod rd ra rm) s = .next u ∧
      (t.flags.even = true ↔ u.x rd = 0)) ∧
    ((s.x ra - s.x rb).natAbs < 2 ^ (s.params.limbBits * s.params.maxLimbs) →
      ∃ t u, exec (.cmp ra rb) s = .next t ∧ exec (.sub rd ra rb) s = .next u ∧
        (t.flags.lt = true ↔ u.x rd < 0) ∧ (t.flags.eq = true ↔ u.x rd = 0) ∧
        (t.flags.gt = true ↔ 0 < u.x rd))

/-- Spec 40_bigint.md R72 (f): results do not depend on W or L except through the capacity. For every command but LOAD
and STORE, which see limbs, if the command ends without a fault under two choices of the parameters, it leaves the
same registers and flags. -/
def Obligations.ResultsDoNotDependOnTheParameters : Prop :=
  ∀ (s t t' : State) (p : Params) (i : Instr), (∀ r, i ≠ .load r) → (∀ r, i ≠ .store r) → s.err = none →
    exec i s = .next t → exec i { s with params := p } = .next t' → t.err = none → t'.err = none →
    (∀ r, t.x r = t'.x r) ∧ t.flags = t'.flags

/-! ## Modular commands -/

/-- Spec 41_modular.md R76, MULMOD: the residue of the exact product, which cannot overflow, and the register result of
MUL into a scratch register followed by MOD, when MUL does not overflow. -/
def Obligations.MulModIsTheResidue : Prop :=
  ∀ (s : State) (rd ra rb rm : Reg), s.RegsFit →
    decode (BitVec.ofNat 32 (0x20 * 2 ^ 24 + rd.val * 2 ^ 20 + ra.val * 2 ^ 16 + rb.val * 2 ^ 12 +
      rm.val * 2 ^ 8)) = .ok (.mulMod rd ra rb rm) ∧
    (0 < s.x rm → ∃ q r : Int, s.x ra * s.x rb = q * s.x rm + r ∧ 0 ≤ r ∧ r < s.x rm ∧
      exec (.mulMod rd ra rb rm) s = .next { s with regs := s.regs.set rd r, busy := false }) ∧
    (s.x rm = 0 → exec (.mulMod rd ra rb rm) s = .next { s with err := some .divisionByZero, busy := false }) ∧
    (s.x rm < 0 → exec (.mulMod rd ra rb rm) s = .next { s with err := some .invalidOperand, busy := false }) ∧
    (0 < s.x rm → (s.x ra * s.x rb).natAbs < 2 ^ (s.params.limbBits * s.params.maxLimbs) → ∀ rt, rt ≠ rm →
      ∃ t u v, exec (.mulMod rd ra rb rm) s = .next t ∧ exec (.mul rt ra rb) s = .next u ∧
        exec (.mod rd rt rm) u = .next v ∧ t.x rd = v.x rd)

/-- Spec 41_modular.md R77, MODEXP: the square-and-multiply loop delivers base^exponent mod modulus, in [0, m). -/
def Obligations.ModExpIsThePower : Prop :=
  ∀ (s : State) (rd ra rb rm : Reg), s.RegsFit →
    decode (BitVec.ofNat 32 (0x21 * 2 ^ 24 + rd.val * 2 ^ 20 + ra.val * 2 ^ 16 + rb.val * 2 ^ 12 +
      rm.val * 2 ^ 8)) = .ok (.modExp rd ra rb rm) ∧
    (0 < s.x rm → 0 ≤ s.x rb → exec (.modExp rd ra rb rm) s =
      .next { s with regs := s.regs.set rd (s.x ra ^ (s.x rb).toNat % s.x rm), busy := false }) ∧
    (s.x rm = 0 → exec (.modExp rd ra rb rm) s = .next { s with err := some .divisionByZero, busy := false }) ∧
    (s.x rm < 0 → exec (.modExp rd ra rb rm) s = .next { s with err := some .invalidOperand, busy := false }) ∧
    (0 < s.x rm → s.x rb < 0 →
      exec (.modExp rd ra rb rm) s = .next { s with err := some .invalidOperand, busy := false })

/-- Spec 41_modular.md R78: what the loop keeps. From ACC = b^(e mod 2^i) and RB = b^(2^i), both mod m, n iterations
from bit i on end with ACC = b^(e mod 2^(i+n)) mod m. -/
def Obligations.ModExpLoopInvariant : Prop :=
  ∀ (b m : Int) (e n i : Nat), 0 < m →
    modExpLoop e m n i (b ^ (e % 2 ^ i) % m) (b ^ 2 ^ i % m) = b ^ (e % 2 ^ (i + n)) % m

/-- Spec 41_modular.md R80, GCD: Euclid's loop delivers the greatest common divisor; a negative operand is
InvalidOperand. -/
def Obligations.GcdIsTheGreatestCommonDivisor : Prop :=
  ∀ (s : State) (rd ra rb : Reg), s.RegsFit →
    decode (BitVec.ofNat 32 (0x22 * 2 ^ 24 + rd.val * 2 ^ 20 + ra.val * 2 ^ 16 + rb.val * 2 ^ 12)) =
      .ok (.gcd rd ra rb) ∧
    (0 ≤ s.x ra → 0 ≤ s.x rb → exec (.gcd rd ra rb) s =
      .next { s with regs := s.regs.set rd (Int.gcd (s.x ra) (s.x rb) : Int), busy := false }) ∧
    (s.x ra < 0 ∨ s.x rb < 0 →
      exec (.gcd rd ra rb) s = .next { s with err := some .invalidOperand, busy := false })

/-- Spec 41_modular.md R82, MODINV: the inverse in [0, m) when gcd(a, m) = 1, NoInverseExists otherwise. -/
def Obligations.ModInvIsTheInverse : Prop :=
  ∀ (s : State) (rd ra rm : Reg), s.RegsFit →
    decode (BitVec.ofNat 32 (0x23 * 2 ^ 24 + rd.val * 2 ^ 20 + ra.val * 2 ^ 16 + rm.val * 2 ^ 8)) =
      .ok (.modInv rd ra rm) ∧
    (0 < s.x rm → Int.gcd (s.x ra) (s.x rm) = 1 →
      ∃ d : Int, 0 ≤ d ∧ d < s.x rm ∧ s.x ra * d % s.x rm = 1 % s.x rm ∧
        exec (.modInv rd ra rm) s = .next { s with regs := s.regs.set rd d, busy := false }) ∧
    (0 < s.x rm → Int.gcd (s.x ra) (s.x rm) ≠ 1 →
      exec (.modInv rd ra rm) s = .next { s with err := some .noInverseExists, busy := false }) ∧
    (s.x rm = 0 → exec (.modInv rd ra rm) s = .next { s with err := some .divisionByZero, busy := false }) ∧
    (s.x rm < 0 → exec (.modInv rd ra rm) s = .next { s with err := some .invalidOperand, busy := false })

/-- Spec 41_modular.md R86, boundary laws: modExp(x, 0, n) = 1 for n > 1, modExp(0, e, n) = 0 for e > 0, and (R77) the
result is 0 when the modulus is 1. -/
def Obligations.ModExpBoundaryLaws : Prop :=
  ∀ (s : State) (rd ra rb rm : Reg), s.RegsFit →
    (s.x rb = 0 → 1 < s.x rm → ∃ t, exec (.modExp rd ra rb rm) s = .next t ∧ t.x rd = 1 ∧ t.err = s.err) ∧
    (s.x ra = 0 → 0 < s.x rb → 0 < s.x rm →
      ∃ t, exec (.modExp rd ra rb rm) s = .next t ∧ t.x rd = 0 ∧ t.err = s.err) ∧
    (0 ≤ s.x rb → s.x rm = 1 → ∃ t, exec (.modExp rd ra rb rm) s = .next t ∧ t.x rd = 0 ∧ t.err = s.err)

/-- Spec 41_modular.md R86: gcd(a, 0) = a for a >= 0, and gcd(a, b) = gcd(b, a mod b) for b > 0, run as commands. -/
def Obligations.GcdEuclidIdentity : Prop :=
  ∀ (s : State) (rd ra rb rq : Reg), s.RegsFit → 0 ≤ s.x ra →
    (s.x rb = 0 → ∃ t, exec (.gcd rd ra rb) s = .next t ∧ t.x rd = s.x ra ∧ t.err = s.err) ∧
    (0 < s.x rb → rq ≠ rb → ∃ t u v, exec (.gcd rd ra rb) s = .next t ∧ exec (.mod rq ra rb) s = .next u ∧
      exec (.gcd rd rb rq) u = .next v ∧ t.x rd = v.x rd ∧ v.err = s.err)

/-- Spec 41_modular.md R86: for coprime e and phi with phi > 1, MODINV returns d such that (e*d) mod phi = 1, run as
MODINV and then MULMOD. -/
def Obligations.InverseLaw : Prop :=
  ∀ (s : State) (rd re rphi ry : Reg), s.RegsFit → 1 < s.x rphi → Int.gcd (s.x re) (s.x rphi) = 1 →
    rd ≠ re → rd ≠ rphi →
    ∃ t u, exec (.modInv rd re rphi) s = .next t ∧ exec (.mulMod ry re rd rphi) t = .next u ∧ u.x ry = 1

/-- Spec 41_modular.md R86, the RSA law, run as commands: with n = p*q for primes p != q, e coprime to (p-1)(q-1) and
d = MODINV(e, (p-1)(q-1)), MODEXP with e and then with d gives back every x in [0, n). -/
def Obligations.RsaRoundTrip : Prop :=
  ∀ (s : State) (p q : Nat) (rx re rn rphi rd rc ry : Reg), s.RegsFit → p.Prime → q.Prime → p ≠ q →
    s.x rn = p * q → s.x rphi = (p - 1) * (q - 1) → 0 ≤ s.x re →
    Int.gcd (s.x re) (s.x rphi) = 1 → 0 ≤ s.x rx → s.x rx < s.x rn →
    rd ≠ rx → rd ≠ re → rd ≠ rn → rc ≠ rd → rc ≠ rn →
    ∃ t u v, exec (.modInv rd re rphi) s = .next t ∧ exec (.modExp rc rx re rn) t = .next u ∧
      exec (.modExp ry rc rd rn) u = .next v ∧ v.x ry = s.x rx ∧ v.err = s.err

/-- Spec 30_encoding.md R58: the four pseudo-commands do what their names say. -/
def Obligations.PseudoCommands : Prop :=
  ∀ (s : State) (rd ra rm rt : Reg), s.RegsFit →
    (∃ t, exec (.ldi rd 0) s = .next t ∧ t.x rd = 0) ∧
    (0 < s.x rm → ∃ t, exec (.mulMod rd ra ra rm) s = .next t ∧ t.x rd = s.x ra ^ 2 % s.x rm) ∧
    (∃ t u, exec (.store ra) s = .next t ∧ exec (.load rd) t = .next u ∧ u.x rd = s.x ra) ∧
    (rt ≠ ra → ∃ t u, exec (.ldi rt 0) s = .next t ∧ exec (.sub rd rt ra) t = .next u ∧ u.x rd = -s.x ra)

/-! ## Frames and whole-machine rules -/

/-- The ten commands that write a register change that register, BUSY and, if they fault, ERR; a fault leaves the
register too (spec 10_state.md R13, R20; 40_bigint.md R61; 60_exceptions.md R92). Every host address but STATUS and
ERR reads as before. -/
def Obligations.RegisterCommandFrame : Prop :=
  ∀ (s t : State) (rd ra rb rm : Reg) (imm : Nat) (i : Instr),
    i ∈ [Instr.ldi rd imm, .load rd, .add rd ra rb, .sub rd ra rb, .mul rd ra rb, .mod rd ra rm,
      .mulMod rd ra rb rm, .modExp rd ra rb rm, .gcd rd ra rb, .modInv rd ra rm] →
    exec i s = .next t →
    (∀ r, r ≠ rd → t.x r = s.x r) ∧ t.cmd = s.cmd ∧ t.flags = s.flags ∧ t.xsign = s.xsign ∧ t.xlen = s.xlen ∧
    (∀ j, t.limbAt j = s.limbAt j) ∧ t.params = s.params ∧ t.script = s.script ∧ t.replies = s.replies ∧
    t.busy = false ∧ (t.err = s.err ∨ (t.err ≠ none ∧ t.x rd = s.x rd)) ∧
    ∀ a : Addr, a ≠ 0x0001 → a ≠ 0x0002 → hostRead t a = hostRead s a

/-- CMP, ISEVEN and ISZERO change their own flags and BUSY only (spec 10_state.md R20; 40_bigint.md R69 to R71). Every
host address but STATUS and FLAGS reads as before. -/
def Obligations.FlagCommandFrame : Prop :=
  ∀ (s t : State) (ra rb : Reg) (i : Instr), i ∈ [Instr.cmp ra rb, .isEven ra, .isZero ra] →
    exec i s = .next t →
    (∀ r, t.x r = s.x r) ∧ t.cmd = s.cmd ∧ t.err = s.err ∧ t.xsign = s.xsign ∧ t.xlen = s.xlen ∧
    (∀ j, t.limbAt j = s.limbAt j) ∧ t.params = s.params ∧ t.script = s.script ∧ t.replies = s.replies ∧
    t.busy = false ∧
    (i = .cmp ra rb → t.flags.even = s.flags.even ∧ t.flags.zero = s.flags.zero) ∧
    (i ≠ .cmp ra rb → t.flags.lt = s.flags.lt ∧ t.flags.eq = s.flags.eq ∧ t.flags.gt = s.flags.gt) ∧
    (i = .isEven ra → t.flags.zero = s.flags.zero) ∧ (i = .isZero ra → t.flags.even = s.flags.even) ∧
    ∀ a : Addr, a ≠ 0x0001 → a ≠ 0x0003 → hostRead t a = hostRead s a

/-- STORE changes the transfer buffer and BUSY only (spec 40_bigint.md R64): it stores to XSIGN, XLEN and the addresses
0x1000 to 0x1000 + L - 1, and every other address but STATUS reads as before. -/
def Obligations.StoreFrame : Prop :=
  ∀ (s t : State) (ra : Reg), exec (.store ra) s = .next t →
    (∀ r, t.x r = s.x r) ∧ t.cmd = s.cmd ∧ t.err = s.err ∧ t.flags = s.flags ∧ t.params = s.params ∧
    t.script = s.script ∧ t.replies = s.replies ∧ t.busy = false ∧
    ∀ a : Addr, a ≠ 0x0001 → a ≠ 0x0005 → a ≠ 0x0006 →
      ¬ (0x1000 ≤ a.toNat ∧ a.toNat < 0x1000 + s.params.maxLimbs) → hostRead t a = hostRead s a

/-- A BigInt register changes only by a reset, or by the completion of a command that has a destination and whose rd
field names the register (spec 10_state.md R16; STORE, CMP, ISEVEN and ISZERO have none, 30_encoding.md R54), and no
host read sees a BigInt register. -/
def Obligations.OnlyCommandsWriteRegisters : Prop :=
  (∀ (s t : State) (r : Reg), step s = .next t → t.x r ≠ s.x r →
    (s.busy = true ∧ t.busy = false ∧ r = rdField s.cmd ∧
      (∃ i, decode s.cmd = .ok i ∧ (∀ ra, i ≠ .store ra) ∧ (∀ ra rb, i ≠ .cmp ra rb) ∧
        (∀ ra, i ≠ .isEven ra) ∧ (∀ ra, i ≠ .isZero ra)) ∧
      (s.script = [] ∨ ∃ rest, s.script = .engine :: rest)) ∨
    ((∀ q, t.x q = 0) ∧ ∃ rest, s.script = .hardReset :: rest ∨
      ∃ v, s.script = .write 0x0004 v :: rest ∧ v.getLsbD 0 = true)) ∧
  (∀ (s : State) (regs : Vector Int 16) (a : Addr), hostRead { s with regs := regs } a = hostRead s a)

/-- No command's behaviour depends on FLAGS (spec 10_state.md R20): with other flags before it, a command leaves the
same state but for the flags it does not write, and it writes the same flags. -/
def Obligations.NoCommandReadsFlags : Prop :=
  ∀ (s t : State) (i : Instr) (f : Flags), exec i s = .next t →
    ∃ t', exec i { s with flags := f } = .next t' ∧ { t' with flags := t.flags } = t ∧
      ((∀ ra rb, i ≠ .cmp ra rb) → t'.flags.lt = f.lt ∧ t'.flags.eq = f.eq ∧ t'.flags.gt = f.gt) ∧
      ((∃ ra rb, i = .cmp ra rb) → t'.flags.lt = t.flags.lt ∧ t'.flags.eq = t.flags.eq ∧ t'.flags.gt = t.flags.gt) ∧
      ((∀ ra, i ≠ .isEven ra) → t'.flags.even = f.even) ∧ ((∃ ra, i = .isEven ra) → t'.flags.even = t.flags.even) ∧
      ((∀ ra, i ≠ .isZero ra) → t'.flags.zero = f.zero) ∧ ((∃ ra, i = .isZero ra) → t'.flags.zero = t.flags.zero)

/-- A faulted machine refuses commands and nothing else (spec 60_exceptions.md R93, R95): a write to CMD is dropped, so
whatever the host reads and writes, short of CTRL and reset, ERR, CMD and the registers stay. -/
def Obligations.FaultedMachineRunsNoCommand : Prop :=
  ∀ (s t : State), s.err ≠ none → s.busy = false →
    (∀ e rest, s.script = e :: rest → e ≠ .hardReset ∧ ∀ v, e ≠ .write 0x0004 v) → step s = .next t →
    t.err = s.err ∧ t.cmd = s.cmd ∧ t.busy = false ∧ t.flags = s.flags ∧ ∀ r, t.x r = s.x r
end

