-- ==== Sys2Proof/Laws/Arith.lean ====
section
/-! SUPPORT. What the primitives of spec 00_scope.md R7 compute. -/

namespace Sys2Proof

theorem LimbWidth.bits_pos (w : LimbWidth) : 0 < w.bits := by cases w <;> decide

theorem Params.limbBits_pos (p : Params) : 0 < p.limbBits := LimbWidth.bits_pos p.limbWidth

theorem Params.limbBits_le (p : Params) : p.limbBits ≤ 64 := by
  unfold Params.limbBits; cases p.limbWidth <;> decide

end Sys2Proof

namespace Sys2Proof.Machine

theorem emod_eq_fmod (a m : Int) : emod a m = Int.fmod a m := (Int.fmod_def a m).symm

theorem emod_eq (a : Int) {m : Int} (h : 0 < m) : emod a m = a % m := by
  rw [emod_eq_fmod, Int.fmod_eq_emod_of_nonneg a h.le]

theorem fdiv_eq (a : Int) {m : Int} (h : 0 < m) : fdiv a m = a / m := by
  rw [fdiv, Int.fdiv_eq_ediv_of_nonneg a h.le]

theorem emod_nonneg (a : Int) {m : Int} (h : 0 < m) : 0 ≤ emod a m := by
  rw [emod_eq a h]; exact Int.emod_nonneg a h.ne'

theorem emod_lt (a : Int) {m : Int} (h : 0 < m) : emod a m < m := by
  rw [emod_eq a h]; exact Int.emod_lt_of_pos a h

theorem bitlen_le_iff (v n : Nat) : bitlen v ≤ n ↔ v < 2 ^ n := by
  unfold bitlen
  split
  · rename_i h; simp [h]
  · rename_i h
    rw [← Nat.log2_lt h]; omega

theorem one_le_nlimbs (w : Nat) (v : Int) : 1 ≤ nlimbs w v := Nat.le_max_left _ _

/-- The limb count says how large a value is: nlimbs(v) ≤ n exactly when |v| < 2^(W*n), for n ≥ 1. -/
theorem nlimbs_le_iff {w : Nat} (hw : 0 < w) (v : Int) {n : Nat} (hn : 1 ≤ n) :
    nlimbs w v ≤ n ↔ v.natAbs < 2 ^ (w * n) := by
  rw [← bitlen_le_iff]
  unfold nlimbs
  rw [Nat.max_le, Nat.div_le_iff_le_mul_add_pred hw]
  constructor
  · rintro ⟨-, h⟩; omega
  · intro h; exact ⟨hn, by omega⟩

/-- The capacity test of spec 10_state.md R15 is the bound of R14. -/
theorem fits_iff (p : Params) (v : Int) : fits p v = true ↔ v.natAbs < 2 ^ p.capacity := by
  simp only [fits, decide_eq_true_eq, Params.capacity]
  exact nlimbs_le_iff p.limbBits_pos v p.one_le_maxLimbs

theorem limb_lt (w : Nat) (v : Int) (i : Nat) : limb w v i < 2 ^ w :=
  Nat.mod_lt _ (by positivity)

theorem imageLimb_lt (w : Nat) (v : Int) (i : Nat) : imageLimb w v i < 2 ^ w := by
  unfold imageLimb
  split
  · exact limb_lt w v i
  · positivity

/-- The limbs of a value, weighted, give its magnitude back modulo the limbs taken. -/
theorem sum_limb (w : Nat) (v : Int) (m : Memory) : ∀ n : Nat, (∀ i < n, m.read i = limb w v i) →
    limbSum w m n = v.natAbs % 2 ^ (w * n)
  | 0, _ => by simp [limbSum, Nat.mod_one]
  | n + 1, h => by
    rw [limbSum, sum_limb w v m n (fun i hi => h i (by omega)), h n (by omega), limb, Nat.mul_succ,
      Nat.pow_add, Nat.mod_mul, Nat.mul_comm]
    ring

theorem limbSum_lt {w : Nat} {m : Memory} (h : ∀ i, m.read i < 2 ^ w) : ∀ n, limbSum w m n < 2 ^ (w * n)
  | 0 => by simp [limbSum]
  | n + 1 => by
    have ih := limbSum_lt h n
    have hn := h n
    rw [limbSum, Nat.mul_succ, Nat.pow_add]
    have : m.read n * 2 ^ (w * n) ≤ (2 ^ w - 1) * 2 ^ (w * n) := Nat.mul_le_mul_right _ (by omega)
    have h2 : (2 ^ w - 1) * 2 ^ (w * n) + 2 ^ (w * n) = 2 ^ (w * n) * 2 ^ w := by
      rw [Nat.sub_mul, one_mul, Nat.sub_add_cancel, Nat.mul_comm]
      exact Nat.le_mul_of_pos_left _ (by positivity)
    omega

end Sys2Proof.Machine
end

