-- ==== Sys2Proof/Laws/Encoding.lean ====
section
/-! SUPPORT. The fields of the words that the encoder writes. -/

namespace Sys2Proof

section wordR
variable {op : Nat} (rd ra rb rm : Reg)

theorem toNat_wordR (h : op < 256) : (wordR op rd ra rb rm).toNat =
    op * 2 ^ 24 + rd.val * 2 ^ 20 + ra.val * 2 ^ 16 + rb.val * 2 ^ 12 + rm.val * 2 ^ 8 := by
  rw [wordR, BitVec.toNat_ofNat, Nat.mod_eq_of_lt]
  omega

theorem opField_wordR (h : op < 256) : opField (wordR op rd ra rb rm) = op := by
  rw [opField, bitsOf, toNat_wordR rd ra rb rm h]; omega

theorem rdField_wordR (h : op < 256) : rdField (wordR op rd ra rb rm) = rd := by
  rw [rdField, regField, bitsOf, toNat_wordR rd ra rb rm h]; ext; simp only [Fin.val_ofNat]; omega

theorem raField_wordR (h : op < 256) : raField (wordR op rd ra rb rm) = ra := by
  rw [raField, regField, bitsOf, toNat_wordR rd ra rb rm h]; ext; simp only [Fin.val_ofNat]; omega

theorem rbField_wordR (h : op < 256) : rbField (wordR op rd ra rb rm) = rb := by
  rw [rbField, regField, bitsOf, toNat_wordR rd ra rb rm h]; ext; simp only [Fin.val_ofNat]; omega

theorem rmField_wordR (h : op < 256) : rmField (wordR op rd ra rb rm) = rm := by
  rw [rmField, regField, bitsOf, toNat_wordR rd ra rb rm h]; ext; simp only [Fin.val_ofNat]; omega

theorem zField_wordR (h : op < 256) : zField (wordR op rd ra rb rm) = 0 := by
  rw [zField, bitsOf, toNat_wordR rd ra rb rm h]; omega

end wordR

section wordI
variable {op : Nat} (rd : Reg) (imm : Nat)

theorem toNat_wordI (h : op < 256) :
    (wordI op rd imm).toNat = op * 2 ^ 24 + rd.val * 2 ^ 20 + imm % 2 ^ 20 := by
  rw [wordI, immBound, BitVec.toNat_ofNat, Nat.mod_eq_of_lt]
  omega

theorem opField_wordI (h : op < 256) : opField (wordI op rd imm) = op := by
  rw [opField, bitsOf, toNat_wordI rd imm h]; omega

theorem rdField_wordI (h : op < 256) : rdField (wordI op rd imm) = rd := by
  rw [rdField, regField, bitsOf, toNat_wordI rd imm h]; ext; simp only [Fin.val_ofNat]; omega

theorem immField_wordI (h : op < 256) : immField (wordI op rd imm) = imm % 2 ^ 20 := by
  rw [immField, bitsOf, toNat_wordI rd imm h]; omega

end wordI

end Sys2Proof
end

