-- ==== Sys2Proof/Laws/Memory.lean ====
section
/-! SUPPORT. The limbs of the transfer buffer: every operation keeps the canonical form, a read after a write, and
equal reads give equal memories. -/

namespace Sys2Proof.Machine

/-- An index below every listed one reads 0. -/
theorem Memory.read_of_lt {m : Memory} {k : Nat} (h : ∀ c ∈ m, k < c.1) : m.read k = 0 := by
  induction m with
  | nil => rfl
  | cons d m ih =>
    have hd : ¬ d.1 = k := by have := h d (by simp); omega
    simp only [read, hd, if_false]
    exact ih (fun c hc => h c (by simp [hc]))

/-- A read after a write: the written limb, and every other limb as before. -/
theorem Memory.read_write (m : Memory) (i j v : Nat) (h : m.Pairwise (fun a b => a.1 < b.1)) :
    (m.write i v).read j = if j = i then v else m.read j := by
  induction m with
  | nil =>
    by_cases hv : v = 0
    · simp [write, read, hv]
    · rcases eq_or_ne j i with hj | hj
      · simp [write, read, hv, hj]
      · simp [write, read, hv, hj, Ne.symm hj]
  | cons c m ih =>
    obtain ⟨hc, hm⟩ := List.pairwise_cons.mp h
    have ih := ih hm
    have absent : ∀ k, k ≤ c.1 → Memory.read m k = 0 := fun k hk =>
      read_of_lt (fun d hd => lt_of_le_of_lt hk (hc d hd))
    by_cases h1 : c.1 < i
    · simp only [write, h1, if_true, read, ih]
      by_cases h2 : c.1 = j
      · have : ¬ j = i := by omega
        simp [h2, this]
      · simp [h2]
    · by_cases h2 : c.1 = i
      · subst h2
        rcases eq_or_ne j c.1 with hj | hj
        · subst hj
          by_cases hv : v = 0
          · simp [write, hv, absent]
          · simp [write, hv, read]
        · by_cases hv : v = 0
          · simp [write, hv, hj, read, Ne.symm hj]
          · simp [write, hv, read, hj, Ne.symm hj]
      · rcases eq_or_ne j i with hj | hj
        · subst hj
          by_cases hv : v = 0
          · simp [write, h1, h2, hv, read, absent j (by omega)]
          · simp [write, h1, h2, hv, read]
        · by_cases hv : v = 0
          · simp [write, h1, h2, hv, hj]
          · simp [write, h1, h2, hv, hj, read, Ne.symm hj]

/-- Every cell of a memory after a write is the written cell or was there before. -/
theorem Memory.mem_write {m : Memory} {i v : Nat} {c : Nat × Nat} (h : c ∈ m.write i v) :
    (c = (i, v) ∧ v ≠ 0) ∨ c ∈ m := by
  induction m with
  | nil =>
    by_cases hv : v = 0
    · simp [write, hv] at h
    · simp [write, hv] at h; simp [h, hv]
  | cons d m ih =>
    simp only [write] at h
    split at h
    · rcases List.mem_cons.mp h with h | h
      · simp [h]
      · rcases ih h with h | h
        · exact .inl h
        · simp [h]
    · split at h
      · right
        split at h
        · simp [h]
        · exact h
      · rename_i hv
        rcases List.mem_cons.mp h with h | h
        · exact .inl ⟨h, hv⟩
        · right
          split at h
          · simp [h]
          · exact h

theorem Memory.write_rising {m : Memory} (i v : Nat) (h : m.Pairwise (fun a b => a.1 < b.1)) :
    (m.write i v).Pairwise (fun a b => a.1 < b.1) := by
  induction m with
  | nil => by_cases hv : v = 0 <;> simp [write, hv]
  | cons d m ih =>
    obtain ⟨hd, hm⟩ := List.pairwise_cons.mp h
    simp only [write]
    split
    · rename_i hlt
      refine List.pairwise_cons.mpr ⟨fun c hc => ?_, ih hm⟩
      rcases mem_write hc with ⟨rfl, -⟩ | hc
      · exact hlt
      · exact hd c hc
    · have rest : (if d.1 = i then m else d :: m).Pairwise (fun a b => a.1 < b.1) := by
        split
        · exact hm
        · exact h
      split
      · exact rest
      · refine List.pairwise_cons.mpr ⟨fun c hc => ?_, rest⟩
        show i < c.1
        split at hc
        · have := hd c hc; omega
        · rcases List.mem_cons.mp hc with rfl | hc
          · omega
          · have := hd c hc; omega

/-- A write within range keeps the canonical form. -/
theorem Memory.wf_write {p : Params} {m : Memory} {i v : Nat} (h : wf p m) (hi : i < p.maxLimbs)
    (hv : v < 2 ^ p.limbBits) : wf p (m.write i v) := by
  refine ⟨write_rising i v h.1, fun c hc => ?_⟩
  rcases mem_write hc with ⟨rfl, h0⟩ | hc
  · exact ⟨hi, Nat.pos_of_ne_zero h0, hv⟩
  · exact h.2 c hc

theorem Memory.wf_nil (p : Params) : wf p [] := ⟨.nil, by simp⟩

/-- Every cell of `ofFn` lies in its range and holds the function's value there. -/
theorem Memory.mem_ofFn {f : Nat → Nat} {n : Nat} : ∀ {i : Nat} {c : Nat × Nat}, c ∈ ofFn f i n →
    i ≤ c.1 ∧ c.1 < i + n ∧ c.2 = f c.1 ∧ c.2 ≠ 0 := by
  induction n with
  | zero => intro i c h; simp [ofFn] at h
  | succ n ih =>
    intro i c h
    simp only [ofFn] at h
    split at h
    · obtain ⟨h1, h2, h3⟩ := ih h
      exact ⟨by omega, by omega, h3⟩
    · rename_i h0
      rcases List.mem_cons.mp h with rfl | h
      · exact ⟨le_refl _, by simp, rfl, h0⟩
      · obtain ⟨h1, h2, h3⟩ := ih h
        exact ⟨by omega, by omega, h3⟩

theorem Memory.read_ofFn {f : Nat → Nat} {n : Nat} : ∀ (i j : Nat),
    (ofFn f i n).read j = if i ≤ j ∧ j < i + n then f j else 0 := by
  induction n with
  | zero => intro i j; simp [ofFn, read]
  | succ n ih =>
    intro i j
    simp only [ofFn]
    rcases eq_or_ne j i with rfl | hj
    · split
      · rename_i h0
        rw [ih, h0]; simp
      · simp [read]
    · have heq : (i + 1 ≤ j ∧ j < i + 1 + n) ↔ (i ≤ j ∧ j < i + (n + 1)) := by omega
      split
      · rw [ih]; simp only [heq]
      · simp only [read, Ne.symm hj, if_false, ih, heq]

/-- A memory filled from a function of W-bit values, within the buffer, has the canonical form. -/
theorem Memory.wf_ofFn {p : Params} {f : Nat → Nat} (hf : ∀ i, f i < 2 ^ p.limbBits) :
    wf p (ofFn f 0 p.maxLimbs) := by
  refine ⟨?_, fun c hc => ?_⟩
  · generalize p.maxLimbs = n
    suffices ∀ i, (ofFn f i n).Pairwise (fun a b => a.1 < b.1) from this 0
    induction n with
    | zero => intro i; simp [ofFn]
    | succ n ih =>
      intro i
      simp only [ofFn]
      split
      · exact ih _
      · exact List.pairwise_cons.mpr ⟨fun c hc => by have := (mem_ofFn hc).1; show i < c.1; omega, ih _⟩
  · obtain ⟨-, h2, h3, h4⟩ := mem_ofFn hc
    exact ⟨by omega, Nat.pos_of_ne_zero h4, h3 ▸ hf _⟩

/-- In a canonical memory every limb is W bits wide. -/
theorem Memory.read_lt {p : Params} {m : Memory} (h : wf p m) (i : Nat) : m.read i < 2 ^ p.limbBits := by
  obtain ⟨-, h⟩ := h
  induction m with
  | nil => simp [read]
  | cons c m ih =>
    simp only [read]
    split
    · exact (h c (by simp)).2.2
    · exact ih (fun d hd => h d (by simp [hd]))

/-- In a canonical memory nothing is stored at or above L. -/
theorem Memory.read_of_le {p : Params} {m : Memory} (h : wf p m) {i : Nat} (hi : p.maxLimbs ≤ i) :
    m.read i = 0 := by
  obtain ⟨-, h⟩ := h
  induction m with
  | nil => rfl
  | cons c m ih =>
    have := (h c (by simp)).1
    have hc : ¬ c.1 = i := by omega
    simp only [read, hc, if_false]
    exact ih (fun d hd => h d (by simp [hd]))

theorem Memory.read_pos_iff {m : Memory} (hr : m.Pairwise (fun a b => a.1 < b.1))
    (hz : ∀ c ∈ m, 0 < c.2) (i v : Nat) : (i, v) ∈ m ↔ m.read i = v ∧ 0 < v := by
  induction m with
  | nil => simp [read]; omega
  | cons c m ih =>
    obtain ⟨hc, hm⟩ := List.pairwise_cons.mp hr
    have ih := ih hm (fun d hd => hz d (by simp [hd]))
    rcases eq_or_ne c.1 i with h | h
    · have notIn : (i, v) ∉ m := fun hin => by have := hc _ hin; simp at this; omega
      have := hz c (by simp)
      simp only [List.mem_cons, notIn, or_false, read, h, if_true]
      constructor
      · rintro rfl; exact ⟨rfl, this⟩
      · rintro ⟨rfl, -⟩; exact Prod.ext h.symm rfl
    · have : ¬ (i, v) = c := fun e => h (by rw [← e])
      simp only [List.mem_cons, this, false_or, read, h, if_false, ih]

/-- Equal reads give equal memories: the canonical form is unique. -/
theorem Memory.eq_of_read_eq {p : Params} {m m' : Memory} (h : wf p m) (h' : wf p m')
    (heq : ∀ i, m.read i = m'.read i) : m = m' := by
  have key : ∀ c, c ∈ m ↔ c ∈ m' := by
    rintro ⟨i, v⟩
    rw [read_pos_iff h.1 (fun c hc => (h.2 c hc).2.1), read_pos_iff h'.1 (fun c hc => (h'.2 c hc).2.1), heq]
  have nd : ∀ {l : Memory}, l.Pairwise (fun a b => a.1 < b.1) → l.Nodup := fun hl =>
    hl.imp (fun hab e => by simp [e] at hab)
  have asymm : ∀ a b : Nat × Nat, a ∈ m → b ∈ m' → a.1 < b.1 → b.1 < a.1 → a = b :=
    fun a b _ _ h1 h2 => by omega
  exact ((List.perm_ext_iff_of_nodup (nd h.1) (nd h'.1)).mpr key).eq_of_pairwise asymm h.1 h'.1

end Sys2Proof.Machine
end

