-- ==== Sys2Proof/Laws/State.lean ====
section
/-! SUPPORT. One lemma per field per update, so that no later proof unfolds a record update. -/

namespace Sys2Proof.Machine

section setX
variable (s : State) (r : Reg) (v : Int)

@[simp] theorem setX_params : (s.setX r v).params = s.params := rfl
@[simp] theorem setX_cmd : (s.setX r v).cmd = s.cmd := rfl
@[simp] theorem setX_busy : (s.setX r v).busy = s.busy := rfl
@[simp] theorem setX_err : (s.setX r v).err = s.err := rfl
@[simp] theorem setX_flags : (s.setX r v).flags = s.flags := rfl
@[simp] theorem setX_xsign : (s.setX r v).xsign = s.xsign := rfl
@[simp] theorem setX_xlen : (s.setX r v).xlen = s.xlen := rfl
@[simp] theorem setX_xlimb : (s.setX r v).xlimb = s.xlimb := rfl
@[simp] theorem setX_script : (s.setX r v).script = s.script := rfl
@[simp] theorem setX_replies : (s.setX r v).replies = s.replies := rfl

/-- A register write changes its destination and no other register. -/
theorem x_setX (q : Reg) : (s.setX r v).x q = if q = r then v else s.x q := by
  rcases eq_or_ne q r with h | h
  · simp [State.x, State.setX, h]
  · have h' : (r : Nat) ≠ (q : Nat) := fun e => h (Fin.ext e.symm)
    simp [State.x, State.setX, h, h']

@[simp] theorem x_setX_same : (s.setX r v).x r = v := by simp [x_setX]

theorem x_setX_of_ne {q : Reg} (h : q ≠ r) : (s.setX r v).x q = s.x q := by simp [x_setX, h]

end setX

section takeFault
variable (k : ErrKind) (s : State)

@[simp] theorem takeFault_params : (takeFault k s).params = s.params := rfl
@[simp] theorem takeFault_regs : (takeFault k s).regs = s.regs := rfl
@[simp] theorem takeFault_x (r : Reg) : (takeFault k s).x r = s.x r := rfl
@[simp] theorem takeFault_cmd : (takeFault k s).cmd = s.cmd := rfl
@[simp] theorem takeFault_busy : (takeFault k s).busy = false := rfl
@[simp] theorem takeFault_err : (takeFault k s).err = some k := rfl
@[simp] theorem takeFault_flags : (takeFault k s).flags = s.flags := rfl
@[simp] theorem takeFault_xsign : (takeFault k s).xsign = s.xsign := rfl
@[simp] theorem takeFault_xlen : (takeFault k s).xlen = s.xlen := rfl
@[simp] theorem takeFault_xlimb : (takeFault k s).xlimb = s.xlimb := rfl
@[simp] theorem takeFault_script : (takeFault k s).script = s.script := rfl
@[simp] theorem takeFault_replies : (takeFault k s).replies = s.replies := rfl

end takeFault

section finish
variable (s : State)

@[simp] theorem finish_params : (finish s).params = s.params := rfl
@[simp] theorem finish_regs : (finish s).regs = s.regs := rfl
@[simp] theorem finish_cmd : (finish s).cmd = s.cmd := rfl
@[simp] theorem finish_err : (finish s).err = s.err := rfl
@[simp] theorem finish_flags : (finish s).flags = s.flags := rfl
@[simp] theorem finish_xsign : (finish s).xsign = s.xsign := rfl
@[simp] theorem finish_xlen : (finish s).xlen = s.xlen := rfl
@[simp] theorem finish_xlimb : (finish s).xlimb = s.xlimb := rfl
@[simp] theorem finish_script : (finish s).script = s.script := rfl
@[simp] theorem finish_replies : (finish s).replies = s.replies := rfl
@[simp] theorem finish_x (r : Reg) : (finish s).x r = s.x r := rfl
@[simp] theorem finish_busy : (finish s).busy = false := rfl

end finish

section acknowledge
variable (s : State)

@[simp] theorem acknowledge_params : (acknowledge s).params = s.params := rfl
@[simp] theorem acknowledge_regs : (acknowledge s).regs = s.regs := rfl
@[simp] theorem acknowledge_x (r : Reg) : (acknowledge s).x r = s.x r := rfl
@[simp] theorem acknowledge_cmd : (acknowledge s).cmd = s.cmd := rfl
@[simp] theorem acknowledge_busy : (acknowledge s).busy = s.busy := rfl
@[simp] theorem acknowledge_err : (acknowledge s).err = none := rfl
@[simp] theorem acknowledge_flags : (acknowledge s).flags = s.flags := rfl
@[simp] theorem acknowledge_xsign : (acknowledge s).xsign = s.xsign := rfl
@[simp] theorem acknowledge_xlen : (acknowledge s).xlen = s.xlen := rfl
@[simp] theorem acknowledge_xlimb : (acknowledge s).xlimb = s.xlimb := rfl
@[simp] theorem acknowledge_script : (acknowledge s).script = s.script := rfl
@[simp] theorem acknowledge_replies : (acknowledge s).replies = s.replies := rfl

end acknowledge

section resetMae
variable (s : State)

@[simp] theorem resetMae_params : (resetMae s).params = s.params := rfl
@[simp] theorem resetMae_cmd : (resetMae s).cmd = 0 := rfl
@[simp] theorem resetMae_busy : (resetMae s).busy = false := rfl
@[simp] theorem resetMae_err : (resetMae s).err = none := rfl
@[simp] theorem resetMae_flags : (resetMae s).flags = ⟨false, false, false, false, false⟩ := rfl
@[simp] theorem resetMae_xsign : (resetMae s).xsign = false := rfl
@[simp] theorem resetMae_xlen : (resetMae s).xlen = 1 := rfl
@[simp] theorem resetMae_xlimb : (resetMae s).xlimb = [] := rfl
@[simp] theorem resetMae_script : (resetMae s).script = s.script := rfl
@[simp] theorem resetMae_replies : (resetMae s).replies = s.replies := rfl

@[simp] theorem resetMae_x (r : Reg) : (resetMae s).x r = 0 := by
  simp [State.x, resetMae, State.resetOf]

end resetMae

section storeImage
variable (v : Int) (s : State)

@[simp] theorem storeImage_params : (storeImage v s).params = s.params := rfl
@[simp] theorem storeImage_regs : (storeImage v s).regs = s.regs := rfl
@[simp] theorem storeImage_x (r : Reg) : (storeImage v s).x r = s.x r := rfl
@[simp] theorem storeImage_cmd : (storeImage v s).cmd = s.cmd := rfl
@[simp] theorem storeImage_busy : (storeImage v s).busy = s.busy := rfl
@[simp] theorem storeImage_err : (storeImage v s).err = s.err := rfl
@[simp] theorem storeImage_flags : (storeImage v s).flags = s.flags := rfl
@[simp] theorem storeImage_xsign : (storeImage v s).xsign = sgn v := rfl
@[simp] theorem storeImage_xlen :
    (storeImage v s).xlen = BitVec.ofNat 16 (nlimbs s.params.limbBits v) := rfl
@[simp] theorem storeImage_xlimb :
    (storeImage v s).xlimb = Memory.ofFn (imageLimb s.params.limbBits v) 0 s.params.maxLimbs := rfl
@[simp] theorem storeImage_script : (storeImage v s).script = s.script := rfl
@[simp] theorem storeImage_replies : (storeImage v s).replies = s.replies := rfl

end storeImage

end Sys2Proof.Machine
end

