-- ==== Sys2Proof/Laws/Ops.lean ====
section
/-! SUPPORT. What each shared operation can do, said once: the operand tests, the checked write, the completion of a
command, and every command as its result given to `complete`. -/

namespace Sys2Proof.Machine

/-! ## Operand tests and the checked write -/

theorem checkMod_zero : checkMod 0 = .error .divisionByZero := rfl

theorem checkMod_neg {m : Int} (h : m < 0) : checkMod m = .error .invalidOperand := by
  simp [checkMod, h, h.ne]

theorem checkMod_pos {m : Int} (h : 0 < m) : checkMod m = .ok () := by
  simp [checkMod, h.ne', h.le]

theorem checkNonneg_neg {v : Int} (h : v < 0) : checkNonneg v = .error .invalidOperand := by
  simp [checkNonneg, h]

theorem checkNonneg_of_nonneg {v : Int} (h : 0 ≤ v) : checkNonneg v = .ok () := by
  simp [checkNonneg, h]

theorem writeReg_of_lt {p : Params} {v : Int} (rd : Reg) (h : v.natAbs < 2 ^ p.capacity) :
    writeReg p rd v = .ok (.reg rd v) := by
  simp [writeReg, (fits_iff p v).mpr h]

theorem writeReg_of_le {p : Params} {v : Int} (rd : Reg) (h : 2 ^ p.capacity ≤ v.natAbs) :
    writeReg p rd v = .error .overflow := by
  have : ¬ fits p v = true := fun hf => absurd ((fits_iff p v).mp hf) (by omega)
  simp [writeReg, this]

theorem bufferValue_of_lt {s : State} (h : s.params.maxLimbs < s.xlen.toNat) :
    bufferValue s = .error .invalidOperand := by
  simp [bufferValue, h]

theorem bufferValue_of_le {s : State} (h : s.xlen.toNat ≤ s.params.maxLimbs) :
    bufferValue s = .ok (if s.xsign then -(limbSum s.params.limbBits s.xlimb s.xlen.toNat : Int)
      else (limbSum s.params.limbBits s.xlimb s.xlen.toNat : Int)) := by
  simp [bufferValue, Nat.not_lt.mpr h]

/-! ## Completion -/

theorem complete_ok (e : Effect) (s : State) :
    complete (.ok e) s = .next (finish (applyEffect e s)) := rfl

theorem complete_error (k : ErrKind) (s : State) : complete (.error k) s = .next (takeFault k s) := rfl

/-- A completion ends in the command's writes or in a fault, and in nothing else. -/
theorem complete_cases {r : CmdResult} {s t : State} (h : complete r s = .next t) :
    (∃ e, r = .ok e ∧ t = finish (applyEffect e s)) ∨
    (∃ k, r = .error k ∧ t = takeFault k s) := by
  cases r with
  | ok e => exact .inl ⟨e, rfl, by simpa [complete] using h.symm⟩
  | error k => exact .inr ⟨k, rfl, by simpa [complete] using h.symm⟩

theorem complete_next (r : CmdResult) (s : State) : ∃ t, complete r s = .next t := by
  cases r <;> exact ⟨_, rfl⟩

/-- The one register a command may write. -/
def destOf : Instr → Option Reg
  | .ldi rd _ => some rd
  | .load rd => some rd
  | .store _ => none
  | .add rd _ _ => some rd
  | .sub rd _ _ => some rd
  | .mul rd _ _ => some rd
  | .mod rd _ _ => some rd
  | .cmp _ _ => none
  | .isEven _ => none
  | .isZero _ => none
  | .mulMod rd _ _ _ => some rd
  | .modExp rd _ _ _ => some rd
  | .gcd rd _ _ => some rd
  | .modInv rd _ _ => some rd

/-- A checked write answers the write or Overflow. -/
theorem writeReg_cases {p : Params} {rd : Reg} {v : Int} {r : CmdResult} (h : writeReg p rd v = r) :
    (r = .ok (.reg rd v) ∧ v.natAbs < 2 ^ p.capacity) ∨
    (r = .error .overflow ∧ 2 ^ p.capacity ≤ v.natAbs) := by
  rcases Nat.lt_or_ge v.natAbs (2 ^ p.capacity) with hv | hv
  · exact .inl ⟨h ▸ writeReg_of_lt rd hv, hv⟩
  · exact .inr ⟨h ▸ writeReg_of_le rd hv, hv⟩

/-- The result of a command that writes only register `rd`: a value within capacity, or a fault. -/
def WritesOnly (p : Params) (rd : Reg) (r : CmdResult) : Prop :=
  (∃ v : Int, r = .ok (.reg rd v) ∧ v.natAbs < 2 ^ p.capacity) ∨ ∃ k, r = .error k

theorem writesOnly_writeReg (p : Params) (rd : Reg) (v : Int) : WritesOnly p rd (writeReg p rd v) := by
  rcases writeReg_cases (p := p) (rd := rd) (v := v) rfl with ⟨h, hv⟩ | ⟨h, -⟩
  · exact .inl ⟨v, h, hv⟩
  · exact .inr ⟨_, h⟩

theorem writesOnly_bind {α : Type} {p : Params} {rd : Reg} (c : Except ErrKind α) {f : α → CmdResult}
    (h : ∀ a, WritesOnly p rd (f a)) : WritesOnly p rd (c >>= f) := by
  cases c with
  | ok a => exact h a
  | error k => exact .inr ⟨k, rfl⟩

theorem compareFlags_oneHot (f : Flags) (a b : Int) : (compareFlags f a b).OneHot := by
  simp only [Flags.OneHot, compareFlags]
  rcases lt_trichotomy a b with h | h | h
  · simp [h, h.ne, h.le]
  · simp [h]
  · simp [h, h.ne', h.le]

/-- Everything a command's completion can do: take a fault; or write its one destination register with a value
within capacity; or write flags; or, STORE, fill the transfer buffer. -/
theorem exec_cases {i : Instr} {s t : State} (h : exec i s = .next t) :
    (∃ k, t = takeFault k s) ∨
    (∃ rd v, destOf i = some rd ∧ v.natAbs < 2 ^ s.params.capacity ∧
      t = finish (s.setX rd v)) ∨
    (∃ f, destOf i = none ∧ (s.flags.OneHot → f.OneHot) ∧ t = finish { s with flags := f }) ∨
    (∃ ra, i = .store ra ∧ t = finish (storeImage (s.x ra) s)) := by
  have reg : ∀ {rd : Reg} {r : CmdResult}, WritesOnly s.params rd r → destOf i = some rd →
      complete r s = .next t → (∃ k, t = takeFault k s) ∨
        ∃ rd v, destOf i = some rd ∧ v.natAbs < 2 ^ s.params.capacity ∧
          t = finish (s.setX rd v) := by
    rintro rd r hr hd hc
    rcases complete_cases hc with ⟨e, he, ht⟩ | ⟨k, -, ht⟩
    · rcases hr with ⟨v, hv, hlt⟩ | ⟨k, hk⟩
      · obtain rfl : e = .reg rd v := by simpa [hv] using he.symm
        exact .inr ⟨rd, v, hd, hlt, ht⟩
      · simp [hk] at he
    · exact .inl ⟨k, ht⟩
  have w := writesOnly_writeReg s.params
  cases i with
  | ldi rd imm => exact (reg (w rd _) rfl h).imp_right .inl
  | load rd => exact (reg (writesOnly_bind _ fun v => w rd v) rfl h).imp_right .inl
  | store ra => exact .inr (.inr (.inr ⟨ra, rfl, (Host.Outcome.next.inj h).symm⟩))
  | add rd ra rb => exact (reg (w rd _) rfl h).imp_right .inl
  | sub rd ra rb => exact (reg (w rd _) rfl h).imp_right .inl
  | mul rd ra rb => exact (reg (w rd _) rfl h).imp_right .inl
  | mod rd ra rm => exact (reg (writesOnly_bind _ fun _ => w rd _) rfl h).imp_right .inl
  | cmp ra rb =>
    exact .inr (.inr (.inl ⟨_, rfl, fun _ => compareFlags_oneHot _ _ _, (Host.Outcome.next.inj h).symm⟩))
  | isEven ra =>
    exact .inr (.inr (.inl ⟨parityFlags s.params.limbBits s.flags (s.x ra), rfl, id,
      (Host.Outcome.next.inj h).symm⟩))
  | isZero ra =>
    exact .inr (.inr (.inl ⟨zeroFlags s.flags (s.x ra), rfl, id, (Host.Outcome.next.inj h).symm⟩))
  | mulMod rd ra rb rm => exact (reg (writesOnly_bind _ fun _ => w rd _) rfl h).imp_right .inl
  | modExp rd ra rb rm =>
    exact (reg (writesOnly_bind _ fun _ => writesOnly_bind _ fun _ => w rd _) rfl h).imp_right .inl
  | gcd rd ra rb =>
    exact (reg (writesOnly_bind _ fun _ => writesOnly_bind _ fun _ => w rd _) rfl h).imp_right .inl
  | modInv rd ra rm =>
    exact (reg (writesOnly_bind _ fun _ => writesOnly_bind _ fun v => w rd v) rfl h).imp_right .inl

/-- No command stops the machine. -/
theorem exec_next (i : Instr) (s : State) : ∃ t, exec i s = .next t := by
  cases i <;> first | exact complete_next _ _ | exact ⟨_, rfl⟩

/-! ## The transfer buffer's image -/

theorem storeImage_xlimbWf (v : Int) (s : State) :
    Memory.wf (storeImage v s).params (storeImage v s).xlimb :=
  Memory.wf_ofFn (imageLimb_lt _ _)

theorem storeImage_limbAt (v : Int) (s : State) (i : Nat) :
    (storeImage v s).limbAt i =
      if i < s.params.maxLimbs then imageLimb s.params.limbBits v i else 0 := by
  simp [State.limbAt, Memory.read_ofFn]

end Sys2Proof.Machine
end

