-- ==== Sys2Proof/Laws/HostPort.lean ====
section
/-! SUPPORT. The address map, one lemma per register (spec 20_memory.md R32), and what one event does.
Addresses are written as simp writes them, `0x0004#13` for `(0x0004 : Addr)`. -/

namespace Sys2Proof.Machine

section map
variable (p : Params)

theorem hostReg_cmd : hostReg p 0x0000#13 = .cmd := by simp [hostReg]
theorem hostReg_status : hostReg p 0x0001#13 = .status := by simp [hostReg]
theorem hostReg_err : hostReg p 0x0002#13 = .err := by simp [hostReg]
theorem hostReg_flags : hostReg p 0x0003#13 = .flags := by simp [hostReg]
theorem hostReg_ctrl : hostReg p 0x0004#13 = .ctrl := by simp [hostReg]
theorem hostReg_xsign : hostReg p 0x0005#13 = .xsign := by simp [hostReg]
theorem hostReg_xlen : hostReg p 0x0006#13 = .xlen := by simp [hostReg]

theorem hostReg_xlimb {i : Nat} (h : i < p.maxLimbs) :
    hostReg p (BitVec.ofNat 13 (0x1000 + i)) = .xlimb i := by
  have hL := p.maxLimbs_le
  have e : (BitVec.ofNat 13 (0x1000 + i)).toNat = 0x1000 + i := by simp; omega
  unfold hostReg
  rw [e]
  split_ifs <;> first | omega | simp

theorem hostReg_reserved {a : Addr}
    (h : (0x0007 ≤ a.toNat ∧ a.toNat < 0x1000) ∨ 0x1000 + p.maxLimbs ≤ a.toNat) :
    hostReg p a = .reserved := by
  unfold hostReg
  split_ifs <;> first | omega | rfl

/-- The map is total: an address names a control register, a limb below L, or nothing. -/
theorem hostReg_cases (a : Addr) :
    a = 0x0000#13 ∨ a = 0x0001#13 ∨ a = 0x0002#13 ∨ a = 0x0003#13 ∨ a = 0x0004#13 ∨ a = 0x0005#13 ∨
    a = 0x0006#13 ∨ (∃ i, i < p.maxLimbs ∧ a = BitVec.ofNat 13 (0x1000 + i)) ∨
    ((0x0007 ≤ a.toNat ∧ a.toNat < 0x1000) ∨ 0x1000 + p.maxLimbs ≤ a.toNat) := by
  have limb : 0x1000 ≤ a.toNat → a = BitVec.ofNat 13 (0x1000 + (a.toNat - 0x1000)) := fun h =>
    BitVec.eq_of_toNat_eq (by simp; omega)
  by_cases h : ∃ i, i < p.maxLimbs ∧ a = BitVec.ofNat 13 (0x1000 + i)
  · simp only [h, true_or, or_true]
  · have h1 : ¬ (0x1000 ≤ a.toNat ∧ a.toNat < 0x1000 + p.maxLimbs) := fun ⟨lo, hi⟩ =>
      h ⟨a.toNat - 0x1000, by omega, limb lo⟩
    simp only [h, false_or]
    bv_omega

theorem hostReg_eq_ctrl_iff (a : Addr) : hostReg p a = .ctrl ↔ a = 0x0004#13 := by
  constructor
  · intro h
    rcases hostReg_cases p a with rfl | rfl | rfl | rfl | rfl | rfl | rfl | ⟨i, hi, rfl⟩ | ha
    · simp [hostReg_cmd] at h
    · simp [hostReg_status] at h
    · simp [hostReg_err] at h
    · simp [hostReg_flags] at h
    · rfl
    · simp [hostReg_xsign] at h
    · simp [hostReg_xlen] at h
    · simp [hostReg_xlimb p hi] at h
    · simp [hostReg_reserved p ha] at h
  · rintro rfl; exact hostReg_ctrl p

end map

/-! ## One event -/

theorem hostWrite_ctrl (v : Word) (s : State) : hostWrite 0x0004#13 v s = ctrlWrite v s := by
  simp [hostWrite, hostReg_ctrl]

theorem hostWrite_busy {a : Addr} (v : Word) {s : State} (ha : a ≠ 0x0004#13) (hb : s.busy = true) :
    hostWrite a v s = s := by
  simp [hostWrite, hostReg_eq_ctrl_iff, ha, hb]

theorem hostWrite_idle {a : Addr} (v : Word) {s : State} (ha : a ≠ 0x0004#13) (hb : s.busy = false) :
    hostWrite a v s = idleWrite a v s := by
  simp [hostWrite, hostReg_eq_ctrl_iff, ha, hb]

/-- CTRL's three actions: reset, acknowledge, nothing (spec 20_memory.md R42). -/
theorem ctrlWrite_cases (v : Word) (s : State) :
    (v.getLsbD 0 = true ∧ ctrlWrite v s = resetMae s) ∨
    (v.getLsbD 0 = false ∧ v.getLsbD 1 = true ∧ s.busy = false ∧ ctrlWrite v s = acknowledge s) ∨
    (v.getLsbD 0 = false ∧ (v.getLsbD 1 = false ∨ s.busy = true) ∧ ctrlWrite v s = s) := by
  unfold ctrlWrite
  cases v.getLsbD 0 <;> cases v.getLsbD 1 <;> cases s.busy <;> simp

theorem runCommand_ok {s : State} {i : Instr} (h : decode s.cmd = .ok i) : runCommand s = exec i s := by
  simp [runCommand, h]

theorem runCommand_error {s : State} {r : Reject} (h : decode s.cmd = .error r) :
    runCommand s = .next (takeFault .illegalCommand s) := by
  simp [runCommand, h]

theorem step_nil {s : State} (h : s.script = []) : step s = engineTurn s := by
  simp [step, takeTurn, h]

theorem step_cons {s : State} {e : Event} {rest : List Event} (h : s.script = e :: rest) :
    step s = perform e { s with script := rest } := by
  simp [step, takeTurn, h]

end Sys2Proof.Machine
end

