-- ==== Sys2Proof/Laws/PerInstr.lean ====
section
/-! SUPPORT. Facts about every command as syntax, one lemma per constructor.
`OpcodeField`: bits 31:24 of a command's word are its opcode (spec 30_encoding.md R50, R51, R53). -/

namespace Sys2Proof.Laws.OpcodeField

def Statement (i : Instr) : Prop := opField (encode i) = opcodeOf i

theorem ldi (rd : Reg) (imm : Nat) : Statement (.ldi rd imm) := opField_wordI rd imm (by decide)
theorem load (rd : Reg) : Statement (.load rd) := opField_wordR rd 0 0 0 (by decide)
theorem store (ra : Reg) : Statement (.store ra) := opField_wordR 0 ra 0 0 (by decide)
theorem add (rd ra rb : Reg) : Statement (.add rd ra rb) := opField_wordR rd ra rb 0 (by decide)
theorem sub (rd ra rb : Reg) : Statement (.sub rd ra rb) := opField_wordR rd ra rb 0 (by decide)
theorem mul (rd ra rb : Reg) : Statement (.mul rd ra rb) := opField_wordR rd ra rb 0 (by decide)
theorem mod (rd ra rm : Reg) : Statement (.mod rd ra rm) := opField_wordR rd ra 0 rm (by decide)
theorem cmp (ra rb : Reg) : Statement (.cmp ra rb) := opField_wordR 0 ra rb 0 (by decide)
theorem isEven (ra : Reg) : Statement (.isEven ra) := opField_wordR 0 ra 0 0 (by decide)
theorem isZero (ra : Reg) : Statement (.isZero ra) := opField_wordR 0 ra 0 0 (by decide)
theorem mulMod (rd ra rb rm : Reg) : Statement (.mulMod rd ra rb rm) :=
  opField_wordR rd ra rb rm (by decide)
theorem modExp (rd ra rb rm : Reg) : Statement (.modExp rd ra rb rm) :=
  opField_wordR rd ra rb rm (by decide)
theorem gcd (rd ra rb : Reg) : Statement (.gcd rd ra rb) := opField_wordR rd ra rb 0 (by decide)
theorem modInv (rd ra rm : Reg) : Statement (.modInv rd ra rm) := opField_wordR rd ra 0 rm (by decide)

end Sys2Proof.Laws.OpcodeField
end

