-- ==== Sys2Proof/Tests/Slice0.lean ====
section
/-! SUPPORT. The model's own tests. Expected results are the vectors of spec 95_test_vectors.md (named V…) and the worked
words of 30_encoding.md R59 and R60; W = 32 and L = 4 as in that file unless a test says otherwise. -/

namespace Sys2Proof.Machine.Test

set_option Elab.async false

/-! ## Helpers -/

/-- W = 32, L = 4. -/
def p4 : Params := ⟨.w32, 4, by decide, by decide⟩

/-- W = 64, L = 2. -/
def p64 : Params := ⟨.w64, 2, by decide, by decide⟩

/-- The presets of part 2 of 95_test_vectors.md: x1, x2 and x4 as given, x3 = 77, all else at reset. -/
def preset (a b m : Int) : State :=
  (((((State.resetOf p4).setX 1 a).setX 2 b).setX 3 77).setX 4 m)

/-- One step that runs the command word `w`. -/
def run (w : CmdWord) (s : State) : Host.Outcome State Fault Refusal := step (s.withFetchWord 32 w.toNat)

/-- What a test looks at in a next state. -/
def look {α : Type} (f : State → α) (o : Host.Outcome State Fault Refusal) : Option α :=
  match o with
  | .next t => some (f t)
  | .fault _ => none
  | .refused _ => none

/-- x3 and ERR's code after the word. -/
def x3 (w : CmdWord) (s : State) : Option (Int × Nat) := look (fun t => (t.x 3, errValue t)) (run w s)

/-- FLAGS after the word. -/
def flagsAfter (w : CmdWord) (s : State) : Option Nat := look (fun t => t.flags.value) (run w s)

/-- XSIGN, XLEN and the first four limbs. -/
def buffer (s : State) : Bool × Nat × List Nat := (s.xsign, s.xlen.toNat, [0, 1, 2, 3].map s.limbAt)

/-- A state whose transfer buffer the host has filled. -/
def withBuffer (sign : Bool) (len : BitVec 16) (limbs : Memory) (s : State) : State :=
  { s with xsign := sign, xlen := len, xlimb := limbs }

/-- M = 2^128 - 1, the largest magnitude at L = 4. -/
def M : Int := 2 ^ 128 - 1

/-! ## WellFormed: its one check, the width of LDI's immediate (R52) -/

theorem test_wellFormed_refuses_wide_immediate : WellFormed (.ldi 1 1048576) = false := by decide
theorem test_wellFormed_accepts_widest_immediate : WellFormed (.ldi 15 1048575) = true := by decide
theorem test_wellFormed_accepts_every_register : WellFormed (.modExp 15 15 15 15) = true := by decide

/-! ## Decoding: words written out from R50, R51 and R53 -/

theorem test_decode_ldi : decode 0b00000001_1111_11111111111111111111 = .ok (.ldi 15 1048575) := by decide
theorem test_decode_load : decode 0b00000010_0010_0000_0000_0000_00000000 = .ok (.load 2) := by decide
theorem test_decode_store : decode 0b00000011_0000_1100_0000_0000_00000000 = .ok (.store 12) := by decide
theorem test_decode_add : decode 0b00010000_0011_0001_0010_0000_00000000 = .ok (.add 3 1 2) := by decide
theorem test_decode_sub : decode 0b00010001_0101_0001_0011_0000_00000000 = .ok (.sub 5 1 3) := by decide
theorem test_decode_mul : decode 0b00010010_0100_0001_0010_0000_00000000 = .ok (.mul 4 1 2) := by decide
theorem test_decode_mod : decode 0b00010011_0110_0100_0000_0111_00000000 = .ok (.mod 6 4 7) := by decide
theorem test_decode_cmp : decode 0b00010100_0000_1001_1010_0000_00000000 = .ok (.cmp 9 10) := by decide
theorem test_decode_isEven : decode 0b00010101_0000_0101_0000_0000_00000000 = .ok (.isEven 5) := by decide
theorem test_decode_isZero : decode 0b00010110_0000_0011_0000_0000_00000000 = .ok (.isZero 3) := by decide
theorem test_decode_mulMod : decode 0b00100000_0001_0010_0011_0100_00000000 = .ok (.mulMod 1 2 3 4) := by decide
theorem test_decode_modExp : decode 0b00100001_0100_0011_1000_1001_00000000 = .ok (.modExp 4 3 8 9) := by decide
theorem test_decode_gcd : decode 0b00100010_1001_1000_0111_0000_00000000 = .ok (.gcd 9 8 7) := by decide
theorem test_decode_modInv : decode 0b00100011_1100_1000_0000_0111_00000000 = .ok (.modInv 12 8 7) := by decide
theorem test_decode_rejects_by_name :
    decode 0x00000000 = .error .unassignedOpcode ∧ decode 0x10312100 = .error .unusedFieldNotZero ∧
    decode 0x0210F000 = .error .unusedFieldNotZero ∧ decode 0xFFFFFFFF = .error .unassignedOpcode := by decide

/-! ## Commands -/

/-- V20a. -/
theorem test_ldi_widest : look (fun t => t.x 15) (run 0x01FFFFFF State.reset) = some 1048575 := by decide +kernel
/-- V20g: a negative value of two limbs. -/
theorem test_load_negative :
    x3 0x02300000 (withBuffer true 2 [(1, 1)] (preset 0 0 0)) = some (-4294967296, 0) := by decide +kernel
/-- V20i: XLEN = 5 at L = 4. -/
theorem test_load_too_long :
    x3 0x02300000 (withBuffer false 5 [] (preset 0 0 0)) = some (77, 3) := by decide +kernel
/-- V20n, with the buffer preset to 0xAAAAAAAA: zero fill above the stored length. -/
theorem test_store_negative : look buffer (run 0x03010000
    (withBuffer true 3 ([0, 1, 2, 3].map fun i => (i, 0xAAAAAAAA)) (preset (-(2 ^ 64 + 5)) 0 0))) =
    some (true, 3, [5, 0, 1, 0]) := by decide +kernel
/-- V20r: W = 64, L = 2. -/
theorem test_store_w64 : look (fun t => (t.xsign, t.xlen.toNat, t.limbAt 0, t.limbAt 1)) (run 0x03030000
    ((State.resetOf p64).setX 3 340282366920938460843936948965011886881)) =
    some (false, 2, 0x0000000000001321, 0xFFFFFFFFFFFFFF72) := by decide +kernel
/-- V21b: opposite signs cancel. -/
theorem test_add_cancels : x3 0x10312000 (preset 5 (-5) 0) = some (0, 0) := by decide +kernel
/-- V21d: Overflow leaves the destination. -/
theorem test_add_overflow : x3 0x10312000 (preset M 1 0) = some (77, 4) := by decide +kernel
/-- V22a: no a >= b precondition. -/
theorem test_sub_negative : x3 0x11312000 (preset 3 5 0) = some (-2, 0) := by decide +kernel
/-- V22d. -/
theorem test_sub_overflow : x3 0x11312000 (preset (-M) 1 0) = some (77, 4) := by decide +kernel
/-- V23b. -/
theorem test_mul_signs : x3 0x12312000 (preset (-3) 4 0) = some (-12, 0) := by decide +kernel
/-- V23h. -/
theorem test_mul_overflow : x3 0x12312000 (preset (2 ^ 96) (2 ^ 32) 0) = some (77, 4) := by decide +kernel
/-- V24a: the floor remainder. -/
theorem test_mod_negative : x3 0x13310200 (preset (-7) 3 0) = some (2, 0) := by decide +kernel
/-- V24f. -/
theorem test_mod_zero : x3 0x13310200 (preset 7 0 0) = some (77, 1) := by decide +kernel
/-- V25f: the sign decides, not the length. -/
theorem test_cmp_sign_decides : flagsAfter 0x14012000 (preset (-(2 ^ 64)) 1 0) = some 0b00001 := by decide +kernel
/-- V25e. -/
theorem test_cmp_greater : flagsAfter 0x14012000 (preset 0 (-1) 0) = some 0b00100 := by decide +kernel
/-- V26d, first half: -3 is odd. -/
theorem test_isEven_negative_odd : flagsAfter 0x15010000 (preset (-3) 0 0) = some 0b00000 := by decide +kernel
/-- V26e, first half: the parity is limb 0's. -/
theorem test_isEven_two_limbs : flagsAfter 0x15010000 (preset 4294967296 0 0) = some 0b01000 := by decide +kernel
/-- V26a, second half, on EVEN = 1: ISZERO leaves EVEN. -/
theorem test_isZero_keeps_even : flagsAfter 0x16010000
    { preset 0 0 0 with flags := ⟨false, false, false, true, false⟩ } = some 0b11000 := by decide +kernel
/-- V27g: the product exceeds the capacity and does not fault. -/
theorem test_mulMod_wide_product : x3 0x20312400 (preset (2 ^ 127) (2 ^ 127) M) = some (2 ^ 126, 0) := by decide +kernel
/-- V27e. -/
theorem test_mulMod_negative_modulus : x3 0x20312400 (preset 9 9 (-7)) = some (77, 3) := by decide +kernel
/-- V28d: the source's literal 5 is wrong (90_conflicts.md C5). -/
theorem test_modExp_source : x3 0x21312400 (preset 125 1153 1961) = some (1161, 0) := by decide +kernel
/-- V28p: DivisionByZero outranks InvalidOperand. -/
theorem test_modExp_priority : x3 0x21312400 (preset 5 (-1) 0) = some (77, 1) := by decide +kernel
/-- V29m. -/
theorem test_gcd_coprime : x3 0x22312000 (preset 5 1872 0) = some (1, 0) := by decide +kernel
/-- V29h. -/
theorem test_gcd_negative : x3 0x22312000 (preset 4 (-6) 0) = some (77, 3) := by decide +kernel
/-- V30q. -/
theorem test_modInv_multi_limb : x3 0x23310200 (preset 65537 340282366920938460807043460817592783792 0) =
    some (196442361873243903843228745541797845217, 0) := by decide +kernel
/-- V30b, V32g: no inverse; the destination keeps its value. -/
theorem test_modInv_none : x3 0x23310200 (preset 3 1728 0) = some (77, 2) := by decide +kernel

/-! ## Faults, the host's accesses and reset -/

/-- V31n, V31a: an illegal word is IllegalCommand and CMD keeps it. -/
theorem test_illegal_word : look (fun t => (errValue t, t.cmd, t.busy)) (run 0x10312100 (preset 1 2 3)) =
    some (5, 0x10312100, false) := by decide +kernel

/-- V33c: XLEN keeps 16 bits. -/
theorem test_write_xlen : look (fun t => hostRead t 0x0006)
    (step { State.resetOf p4 with script := [.write 0x0006 0x12345] }) = some 0x2345 := by decide +kernel

/-- V33a, V33b: reads at reset, reserved addresses among them. -/
theorem test_reset_reads : [0x0000, 0x0001, 0x0002, 0x0003, 0x0004, 0x0005, 0x0006, 0x1000, 0x0007, 0x0FFF, 0x1004,
    0x1FFF].map (hostRead (State.resetOf p4)) = [0, 0, 0, 0, 0, 0, 1, 0, 0, 0, 0, 0] := by decide +kernel

/-- V33d: a CMD write while busy is dropped. -/
theorem test_busy_write_dropped : look (fun t => (hostRead t 0x0000, hostRead t 0x0001))
    (step { State.resetOf p4 with cmd := 0x01100007, busy := true, script := [.write 0x0000 0x01200009] }) =
    some (0x01100007, 1) := by decide +kernel

/-- V33e: a CMD write while a fault is pending is dropped. -/
theorem test_faulted_write_dropped : look (fun t => (hostRead t 0x0000, hostRead t 0x0001))
    (step { State.resetOf p4 with
      cmd := 0x23310200, err := some .noInverseExists, script := [.write 0x0000 0x01300001] }) =
    some (0x23310200, 2) := by decide +kernel

/-- V33h: SRST has precedence over CLRERR. -/
theorem test_reset_before_acknowledge : look (fun t => (errValue t, t.x 1, t.xlen.toNat))
    (step { withBuffer true 3 [(0, 9)] (preset 7 0 0) with err := some .noInverseExists, script := [.write 0x0004 3] }) =
    some (0, 0, 1) := by decide +kernel

/-- V33j: the buffer is writable while a fault is pending. -/
theorem test_faulted_limb_write : look (fun t => hostRead t 0x1000)
    (step { withBuffer false 4 [(0, 1), (1, 2)] (preset 0 0 0) with
      err := some .noInverseExists, script := [.write 0x1000 9] }) = some 9 := by decide +kernel

/-! ## Witnesses: states and operands that meet the hypotheses of each statement -/

/-- A busy state with a command in flight: LDI x1, 7. -/
def inFlight : State := { State.resetOf p4 with cmd := 0x01100007, busy := true }

/-- A busy state with an illegal word in flight. -/
def illegalInFlight : State := { State.resetOf p4 with cmd := 0x10312100, busy := true }

/-- A faulted state. -/
def faulted : State := { preset 3 1728 0 with cmd := 0x23310200, err := some .noInverseExists }

theorem inv_preset : (preset M (-M) 7).Inv := ⟨by decide +kernel, by decide +kernel, by decide, by decide⟩
theorem inv_inFlight : inFlight.Inv := ⟨by decide +kernel, by decide +kernel, by decide, by decide⟩
theorem inv_faulted : faulted.Inv := ⟨by decide +kernel, by decide +kernel, by decide, by decide⟩

theorem witness_DecodeOfEncode :
    WellFormed (.ldi 15 1048575) = true ∧ WellFormed (.modInv 0 15 15) = true := by decide
theorem witness_EncodeOfDecode : decode 0x01FFFFFF = .ok (.ldi 15 1048575) ∧ decode 0x230F0F00 = .ok (.modInv 0 15 15) := by
  decide
theorem witness_DecodeAgreesWithTheOpcodeTable :
    ⟨"MODINV", 0x23, 0x23000000, 0xFF00F0FF⟩ ∈ opcodeTable ∧ (0x230F0F00 : CmdWord) &&& 0xFF00F0FF = 0x23000000 := by decide
theorem witness_OpcodeRowsAreExclusive :
    ⟨"ADD", 0x10, 0x10000000, 0xFF000FFF⟩ ∈ opcodeTable ∧ (0x10312000 : CmdWord) &&& 0xFF000FFF = 0x10000000 := by decide
theorem witness_IllegalWordsFault_completion :
    illegalInFlight.busy = true ∧ ∀ row ∈ opcodeTable, illegalInFlight.cmd &&& row.mask ≠ row.pattern := by decide
theorem witness_IllegalWordsFault_issue : (State.resetOf p4).busy = false ∧ (State.resetOf p4).err = none ∧
    ∀ row ∈ opcodeTable, (0xFFFFFFFF : Word).setWidth 32 &&& row.mask ≠ row.pattern := by decide
theorem witness_StepRunsTheDecodedCommand : inFlight.busy = true ∧ decode inFlight.cmd = .ok (.ldi 1 7) := by decide
theorem witness_HostWritesWhileIdle_idle : (State.resetOf p4).busy = false ∧ (State.resetOf p4).err = none := by decide
theorem witness_HostWritesWhileIdle_faulted : faulted.busy = false ∧ faulted.err ≠ none := by decide
theorem witness_HostWritesWhileIdle_limb : (preset 1 2 3).busy = false ∧
    Memory.wf (preset 1 2 3).params (preset 1 2 3).xlimb ∧ 3 < (preset 1 2 3).params.maxLimbs := by decide +kernel
theorem witness_HostAccessesWhileBusy : inFlight.busy = true ∧ (0x0000 : Addr) ≠ 0x0004 ∧
    (0x0002 : Addr) ≠ 0x0000 ∧ (0x0002 : Addr) ≠ 0x0001 := by decide
theorem witness_HostWritesToCtrl_reset : (0x3 : Word).getLsbD 0 = true := by decide
theorem witness_HostWritesToCtrl_acknowledge :
    (0x2 : Word).getLsbD 0 = false ∧ (0x2 : Word).getLsbD 1 = true ∧ faulted.busy = false := by decide
theorem witness_HostWritesToCtrl_nothing :
    (0xFFFFFFFC : Word).getLsbD 0 = false ∧ (0xFFFFFFFC : Word).getLsbD 1 = false ∧ (0x2 : Word).getLsbD 0 = false ∧
    inFlight.busy = true := by decide
theorem witness_HostReadsFollowTheMap_limb :
    Memory.wf p4 [(0, 1), (3, 0xFFFFFFFF)] ∧ 3 < p4.maxLimbs ∧
    Memory.wf p64 [(1, 0xFFFFFFFFFFFFFFFF)] ∧ 1 < p64.maxLimbs := by decide +kernel
theorem witness_HostReadsFollowTheMap_err : ∀ k ∈ [ErrKind.divisionByZero, .noInverseExists, .invalidOperand, .overflow,
    .illegalCommand], ({ State.resetOf p4 with err := some k } : State).err = some k := by decide
theorem witness_ReservedAndReadOnlyAccesses_first : 0x0007 ≤ (0x0007 : Addr).toNat ∧ (0x0FFF : Addr).toNat < 0x1000 := by
  decide
theorem witness_ReservedAndReadOnlyAccesses_last : 0x1000 + p4.maxLimbs ≤ (0x1004 : Addr).toNat ∧
    (0x1FFF : Addr).toNat = 0x1FFF ∧ ¬ 0x1000 + p4.maxLimbs ≤ (0x1003 : Addr).toNat := by decide
theorem witness_ReservedAndReadOnlyAccesses_bits : ∀ b, b < 16 → (0x12345 : Word).getLsbD b = (0x2345 : Word).getLsbD b := by
  decide
theorem witness_LimbWriteReadsBack : ∃ t, step { preset 1 2 3 with script := [.write (BitVec.ofNat 13 (0x1000 + 3)) 9] } =
    .next t ∧ (preset 1 2 3).busy = false ∧ Memory.wf (preset 1 2 3).params (preset 1 2 3).xlimb ∧
    3 < (preset 1 2 3).params.maxLimbs := ⟨_, rfl, by decide +kernel⟩
theorem witness_HostTrafficWhileBusyIsInvisible : inFlight.busy = true ∧
    ∀ e ∈ [Event.read 0x0004, .write 0x0000 5], (∃ a, e = .read a) ∨ ∃ a v, e = .write a v ∧ a ≠ 0x0004 := by
  refine ⟨rfl, fun e he => ?_⟩
  simp only [List.mem_cons, List.not_mem_nil, or_false] at he
  rcases he with rfl | rfl
  · exact .inl ⟨_, rfl⟩
  · exact .inr ⟨0x0000, 5, rfl, by decide⟩
theorem witness_EveryIssuedCommandCompletes :
    let s : State := { inFlight with script := [.read 0x0001, .write 0x0004 2] }
    s.busy = true ∧ ∀ e ∈ s.script, e ≠ .hardReset ∧ ∀ v, e = .write 0x0004 v → v.getLsbD 0 = false := by
  refine ⟨rfl, fun e he => ?_⟩
  simp only [List.mem_cons, List.not_mem_nil, or_false] at he
  rcases he with rfl | rfl
  · exact ⟨by decide, fun v h => by cases h⟩
  · exact ⟨by decide, fun v h => by cases h; decide⟩
theorem witness_StepKeepsParametersAndScript_read :
    ({ inFlight with script := [.read 0x0001] } : State).script.head? = some (.read 0x0001) ∧
    ∃ t, step { inFlight with script := [.read 0x0001] } = .next t := ⟨rfl, _, rfl⟩
theorem witness_StepKeepsParametersAndScript_noRead : (∀ a, inFlight.script.head? ≠ some (.read a)) ∧
    ∃ t, step inFlight = .next t := ⟨fun a h => (by cases h), _, rfl⟩
theorem witness_ResetValues : (0x1 : Word).getLsbD 0 = true := by decide
theorem witness_ResetAbortsTheCommand : inFlight.busy = true ∧ (0x3 : Word).getLsbD 0 = true := by decide
theorem witness_StepKeepsTheInvariants : inFlight.Inv ∧ ∃ t, step inFlight = .next t := ⟨inv_inFlight, _, rfl⟩
theorem witness_ReachableStatesMeetTheInvariants : ∃ s, Reaches { State.resetOf p4 with
    script := [.write 0x0000 0x01100007, .engine] } s ∧ s.busy = true :=
  ⟨_, .tail (.refl _) rfl, by decide⟩
theorem witness_PhaseTransitions_idle : (preset M (-M) 7).Inv ∧ (preset M (-M) 7).phase = .idle ∧
    ∃ t, step (preset M (-M) 7) = .next t := ⟨inv_preset, by decide, _, rfl⟩
theorem witness_PhaseTransitions_busy : inFlight.Inv ∧ inFlight.phase = .busy ∧ ∃ t, step inFlight = .next t :=
  ⟨inv_inFlight, by decide, _, rfl⟩
theorem witness_PhaseTransitions_fault : faulted.Inv ∧ faulted.phase = .fault ∧ ∃ t, step faulted = .next t :=
  ⟨inv_faulted, by decide, _, rfl⟩
theorem witness_FaultEntryChangesNothingElse : (preset 7 0 0).err = none ∧
    ∃ t, exec (.mod 3 1 2) (preset 7 0 0) = .next t ∧ t.err ≠ none := ⟨by decide, _, rfl, by decide +kernel⟩
theorem witness_FaultsPerCommand : (preset M (-M) 7).Inv ∧ (preset M (-M) 7).err = none ∧
    WellFormed (.ldi 3 1048575) = true ∧ ∃ t, exec (.ldi 3 1048575) (preset M (-M) 7) = .next t :=
  ⟨inv_preset, by decide, by decide, _, rfl⟩
theorem witness_FaultsPerCommand_illegal : (∀ i, decode illegalInFlight.cmd ≠ .ok i) ∧
    ∃ t, runCommand illegalInFlight = .next t :=
  ⟨fun i h => (by rw [show decode illegalInFlight.cmd = .error .unusedFieldNotZero by decide] at h; cases h), _, rfl⟩
theorem witness_FaultPriority_modulus : (preset 5 (-1) 0).x 4 = 0 ∧ (preset 5 3 (-7)).x 4 < 0 ∧
    0 < (preset 5 (-1) 7).x 4 ∧ (preset 5 (-1) 7).x 2 < 0 := by decide
theorem witness_FaultPriority_gcd : (preset (-6) 4 0).x 1 < 0 ∧ (preset 4 (-6) 0).x 2 < 0 := by decide
theorem witness_FaultPriority_load : (withBuffer false 5 [] (preset 0 0 0)).params.maxLimbs <
    (withBuffer false 5 [] (preset 0 0 0)).xlen.toNat := by decide
theorem witness_FaultPriority_inverse : 0 < (preset 3 1728 1728).x 4 ∧
    Int.gcd ((preset 3 1728 1728).x 1) ((preset 3 1728 1728).x 4) ≠ 1 := by decide +kernel
theorem witness_FaultPriority_overflow : 2 ^ (p4.limbBits * p4.maxLimbs) ≤ (M + 1).natAbs ∧
    2 ^ (p4.limbBits * p4.maxLimbs) ≤ (-M - 1).natAbs ∧ 2 ^ (p4.limbBits * p4.maxLimbs) ≤ (2 ^ 64 * 2 ^ 64 : Int).natAbs := by
  decide +kernel
theorem witness_AcknowledgeReturnsToIdle : faulted.busy = false ∧ faulted.err ≠ none ∧ (0x2 : Word).getLsbD 0 = false ∧
    (0x2 : Word).getLsbD 1 = true := by decide
theorem witness_CanonicalForm_unique : 1 ≤ 1 ∧ (∀ i : Nat, (fun _ => 5 : Nat → Nat) i < 2 ^ p4.limbBits) ∧
    (5 : Int) = (if false then -1 else 1) * ∑ i ∈ Finset.range 1, ((fun _ => 5 : Nat → Nat) i : Int) * 2 ^ (p4.limbBits * i) :=
  ⟨le_refl 1, fun _ => (show 5 < 2 ^ p4.limbBits by decide), by simp⟩
theorem witness_LdiWritesItsImmediate : 1048575 < 2 ^ 20 := by decide
theorem witness_LoadWritesTheBufferValue :
    Memory.wf p4 [(0, 0xFFFFFFFF), (3, 0xFFFFFFFF)] ∧ (4 : BitVec 16).toNat ≤ p4.maxLimbs ∧
    p4.maxLimbs < (5 : BitVec 16).toNat := by decide +kernel
theorem witness_StoreWritesTheImage : (preset M (-M) 7).RegsFit := inv_preset.regsFit
theorem witness_StoreThenLoadReproducesTheValue : (preset M (-M) 7).RegsFit ∧
    ∃ t t', exec (.store 1) (preset 5 0 0) = .next t ∧ exec (.store 2) (preset 9 5 1) = .next t' ∧
      (preset 5 0 0).params = (preset 9 5 1).params ∧ (preset 5 0 0).x 1 = (preset 9 5 1).x 2 :=
  ⟨inv_preset.regsFit, _, _, rfl, rfl, rfl, by decide⟩
theorem witness_AddIsExact : (M + 0).natAbs < 2 ^ (p4.limbBits * p4.maxLimbs) ∧
    2 ^ (p4.limbBits * p4.maxLimbs) ≤ (M + 1).natAbs := by decide +kernel
theorem witness_SubIsExact : (0 - M).natAbs < 2 ^ (p4.limbBits * p4.maxLimbs) ∧
    2 ^ (p4.limbBits * p4.maxLimbs) ≤ (-M - 1).natAbs ∧ (preset M 0 0).RegsFit ∧ 0 ≤ (preset M 0 0).x 1 ∧
    0 ≤ (preset M 0 0).x 2 ∧ (preset (-M) (-1) 0).RegsFit ∧ (preset (-M) (-1) 0).x 1 < 0 ∧
    (preset (-M) (-1) 0).x 2 < 0 := by decide +kernel
theorem witness_MulIsExact : ((2 ^ 96 : Int) * 2 ^ 31).natAbs < 2 ^ (p4.limbBits * p4.maxLimbs) ∧
    2 ^ (p4.limbBits * p4.maxLimbs) ≤ ((2 ^ 96 : Int) * 2 ^ 32).natAbs ∧ (2 ^ 96 : Int) ≠ 0 := by decide +kernel
theorem witness_ModIsTheFloorRemainder : (preset (-7) 3 0).RegsFit ∧ 0 < (preset (-7) 1 0).x 2 ∧
    (preset 7 0 0).x 2 = 0 ∧ (preset 7 (-1) 0).x 2 < 0 := by decide +kernel
theorem witness_TestsAgreeWithArithmetic : (preset (-4) 2 0).RegsFit ∧ (preset (-4) 2 0).x 2 = 2 ∧
    ((preset (-4) 2 0).x 1 - (preset (-4) 2 0).x 2).natAbs < 2 ^ (p4.limbBits * p4.maxLimbs) := by decide +kernel
theorem witness_ResultsDoNotDependOnTheParameters : (preset 5 4 0).err = none ∧
    ∃ t t', exec (.add 3 1 2) (preset 5 4 0) = .next t ∧
      exec (.add 3 1 2) { preset 5 4 0 with params := p64 } = .next t' ∧ t.err = none ∧ t'.err = none :=
  ⟨by decide, _, _, rfl, rfl, by decide +kernel, by decide +kernel⟩
theorem witness_MulModIsTheResidue : (preset (2 ^ 127) (2 ^ 127) M).RegsFit ∧ 0 < (preset (2 ^ 127) (2 ^ 127) M).x 4 ∧
    (preset 9 9 0).x 4 = 0 ∧ (preset 9 9 (-1)).x 4 < 0 := by decide +kernel
theorem witness_MulModIsTheResidue_mulThenMod : (preset 9 9 1).RegsFit ∧ 0 < (preset 9 9 1).x 4 ∧ (3 : Reg) ≠ 4 ∧
    ((preset 9 9 1).x 1 * (preset 9 9 1).x 2).natAbs < 2 ^ (p4.limbBits * p4.maxLimbs) := by decide +kernel
theorem witness_ModExpIsThePower : (preset 7 0 1).RegsFit ∧ 0 < (preset 7 0 1).x 4 ∧ 0 ≤ (preset 7 0 1).x 2 ∧
    (preset 5 (-1) 7).x 2 < 0 ∧ (preset 5 3 0).x 4 = 0 ∧ (preset 5 3 (-7)).x 4 < 0 := by decide +kernel
theorem witness_ModExpLoopInvariant : (0 : Int) < 1 ∧ (0 : Int) < 1961 := by decide
theorem witness_GcdIsTheGreatestCommonDivisor : (preset 0 0 0).RegsFit ∧ 0 ≤ (preset 0 0 0).x 1 ∧ 0 ≤ (preset 0 0 0).x 2 ∧
    (preset (-1) 0 0).x 1 < 0 ∧ (preset 0 (-1) 0).x 2 < 0 := by decide +kernel
theorem witness_ModInvIsTheInverse : (preset 0 1 0).RegsFit ∧ 0 < (preset 0 1 0).x 2 ∧
    Int.gcd ((preset 0 1 0).x 1) ((preset 0 1 0).x 2) = 1 ∧ Int.gcd ((preset 0 5 0).x 1) ((preset 0 5 0).x 2) ≠ 1 ∧
    0 < (preset 0 5 0).x 2 ∧ (preset 7 0 0).x 2 = 0 ∧ (preset 7 (-5) 0).x 2 < 0 := by decide +kernel
theorem witness_ModExpBoundaryLaws : (preset 0 0 2).RegsFit ∧ (preset 0 0 2).x 2 = 0 ∧ 1 < (preset 0 0 2).x 4 ∧
    (preset 0 1 1).x 1 = 0 ∧ 0 < (preset 0 1 1).x 2 ∧ 0 < (preset 0 1 1).x 4 ∧ (preset 0 1 1).x 4 = 1 := by decide +kernel
theorem witness_GcdEuclidIdentity : (preset 0 0 0).RegsFit ∧ 0 ≤ (preset 0 0 0).x 1 ∧ (preset 0 0 0).x 2 = 0 ∧
    0 < (preset 1071 462 0).x 2 ∧ (3 : Reg) ≠ 2 := by decide +kernel
theorem witness_InverseLaw : (preset 5 1872 0).RegsFit ∧ 1 < (preset 5 1872 0).x 2 ∧
    Int.gcd ((preset 5 1872 0).x 1) ((preset 5 1872 0).x 2) = 1 ∧ (3 : Reg) ≠ 1 ∧ (3 : Reg) ≠ 2 := by decide +kernel

/-- P1 and P2 of 95_test_vectors.md: x1 = message 5, x2 = e = 5, x4 = n = 1961, x7 = phi = 1872. -/
def rsaState : State := (preset 5 5 1961).setX 7 1872

theorem witness_RsaRoundTrip : rsaState.RegsFit ∧ Nat.Prime 37 ∧ Nat.Prime 53 ∧ 37 ≠ 53 ∧
    rsaState.x 4 = (37 : Nat) * (53 : Nat) ∧ rsaState.x 7 = ((37 : Nat) - 1) * ((53 : Nat) - 1) ∧ 0 ≤ rsaState.x 2 ∧
    Int.gcd (rsaState.x 2) (rsaState.x 7) = 1 ∧ 0 ≤ rsaState.x 1 ∧ rsaState.x 1 < rsaState.x 4 ∧
    (5 : Reg) ≠ 1 ∧ (5 : Reg) ≠ 2 ∧ (5 : Reg) ≠ 4 ∧ (6 : Reg) ≠ 5 ∧ (6 : Reg) ≠ 4 := by
  refine ⟨by decide +kernel, by norm_num, by norm_num, by decide, ?_⟩
  decide +kernel
theorem witness_PseudoCommands : (preset M (-M) 7).RegsFit ∧ 0 < (preset M (-M) 7).x 4 ∧ (3 : Reg) ≠ 1 :=
  ⟨inv_preset.regsFit, by decide, by decide⟩
theorem witness_RegisterCommandFrame : ∃ t, exec (.add 3 1 2) (preset 5 4 0) = .next t ∧
    Instr.add 3 1 2 ∈ [Instr.ldi 3 0, .load 3, .add 3 1 2] := ⟨_, rfl, by decide⟩
theorem witness_FlagCommandFrame : ∃ t, exec (.cmp 1 2) (preset 5 4 0) = .next t ∧
    Instr.cmp 1 2 ∈ [Instr.cmp 1 2, .isEven 1, .isZero 1] := ⟨_, rfl, by decide⟩
theorem witness_StoreFrame : (∃ t, exec (.store 1) (preset 5 4 0) = .next t) ∧
    ¬ (0x1000 ≤ (0x1004 : Addr).toNat ∧ (0x1004 : Addr).toNat < 0x1000 + p4.maxLimbs) := ⟨⟨_, rfl⟩, by decide⟩
theorem witness_OnlyCommandsWriteRegisters_command : ∃ t, step inFlight = .next t ∧ t.x 1 ≠ inFlight.x 1 :=
  ⟨_, rfl, by decide +kernel⟩
theorem witness_OnlyCommandsWriteRegisters_reset : ∃ t, step { preset 5 4 0 with script := [.write 0x0004 1] } = .next t ∧
    t.x 1 ≠ (preset 5 4 0).x 1 := ⟨_, rfl, by decide +kernel⟩
theorem witness_NoCommandReadsFlags : ∃ t, exec (.isZero 1) (preset 0 0 0) = .next t := ⟨_, rfl⟩
theorem witness_FaultedMachineRunsNoCommand : faulted.err ≠ none ∧ faulted.busy = false ∧
    (∀ e rest, ({ faulted with script := [.write 0x0000 5] } : State).script = e :: rest →
      e ≠ .hardReset ∧ ∀ v, e ≠ .write 0x0004 v) ∧
    ∃ t, step { faulted with script := [.write 0x0000 5] } = .next t := by
  refine ⟨by decide, by decide, fun e rest h => ?_, _, rfl⟩
  cases h
  exact ⟨by decide, fun v h => by cases h⟩

end Sys2Proof.Machine.Test
end

section
/-! The invariants of spec 10_state.md R30: each operation of the model keeps `State.Inv`, hence every step does, hence
they hold in every reachable state. -/

namespace Sys2Proof.Machine

/-! ## At reset, and kept by each operation on the state -/

theorem resetOf_inv (p : Params) : (State.resetOf p).Inv where
  regsFit r := by simp [State.x, State.resetOf]
  xlimbWf := Memory.wf_nil p
  busyClean _ := rfl
  flagsOneHot := Nat.zero_le 1

theorem resetMae_inv (s : State) : (resetMae s).Inv where
  regsFit r := by simp
  xlimbWf := Memory.wf_nil s.params
  busyClean _ := rfl
  flagsOneHot := Nat.zero_le 1

section
variable {s : State} (h : s.Inv)
include h

theorem withScript_inv (es : List Event) : ({ s with script := es } : State).Inv := { h with }

theorem withReplies_inv (ws : List Word) : ({ s with replies := ws } : State).Inv := { h with }

theorem takeFault_inv (k : ErrKind) : (takeFault k s).Inv :=
  { h with busyClean := by simp [State.BusyClean] }

theorem acknowledge_inv : (acknowledge s).Inv := { h with busyClean := fun _ => rfl }

theorem finish_inv : (finish s).Inv := { h with busyClean := by simp [State.BusyClean] }

theorem setX_inv (rd : Reg) {v : Int} (hv : v.natAbs < 2 ^ s.params.capacity) : (s.setX rd v).Inv := by
  have fit : (s.setX rd v).RegsFit := fun r => by
    rw [x_setX]
    split
    · exact hv
    · exact h.regsFit r
  exact { h with regsFit := fit }

theorem withFlags_inv {f : Flags} (hf : f.OneHot) : ({ s with flags := f } : State).Inv :=
  { h with flagsOneHot := hf }

theorem storeImage_inv (v : Int) : (storeImage v s).Inv := { h with xlimbWf := storeImage_xlimbWf v s }

/-! ## Kept by the host's writes -/

/-- A command is accepted only when ERR = 0, which is what BUSY = 1 asks for. -/
theorem issue_inv (v : Word) : (issue v s).Inv := by
  unfold issue
  split
  case isTrue => exact h
  case isFalse herr =>
    have err : s.err = none := by simpa using herr
    exact { h with busyClean := fun _ => err }

theorem writeLimb_inv {i v : Nat} (hi : i < s.params.maxLimbs) (hv : v < 2 ^ s.params.limbBits) :
    ({ s with xlimb := s.xlimb.write i v } : State).Inv :=
  { h with xlimbWf := Memory.wf_write h.xlimbWf hi hv }

end

/-- The map names only limbs below L. -/
theorem lt_maxLimbs_of_hostReg_eq_xlimb {p : Params} {a : Addr} {i : Nat} (h : hostReg p a = .xlimb i) :
    i < p.maxLimbs := by
  rcases hostReg_cases p a with rfl | rfl | rfl | rfl | rfl | rfl | rfl | ⟨j, hj, rfl⟩ | ha
  · simp [hostReg_cmd] at h
  · simp [hostReg_status] at h
  · simp [hostReg_err] at h
  · simp [hostReg_flags] at h
  · simp [hostReg_ctrl] at h
  · simp [hostReg_xsign] at h
  · simp [hostReg_xlen] at h
  · obtain rfl : j = i := by simpa [hostReg_xlimb p hj] using h
    exact hj
  · simp [hostReg_reserved p ha] at h

theorem idleWrite_inv {s : State} (h : s.Inv) (a : Addr) (v : Word) : (idleWrite a v s).Inv := by
  unfold idleWrite
  split
  case h_1 => exact issue_inv h v
  case h_2 => exact { h with }
  case h_3 => exact { h with }
  case h_4 i hi => exact writeLimb_inv h (lt_maxLimbs_of_hostReg_eq_xlimb hi) (Nat.mod_lt _ (by positivity))
  all_goals exact h

theorem ctrlWrite_inv {s : State} (h : s.Inv) (v : Word) : (ctrlWrite v s).Inv := by
  rcases ctrlWrite_cases v s with ⟨-, e⟩ | ⟨-, -, -, e⟩ | ⟨-, -, e⟩ <;> rw [e]
  · exact resetMae_inv s
  · exact acknowledge_inv h
  · exact h

theorem hostWrite_inv {s : State} (h : s.Inv) (a : Addr) (v : Word) : (hostWrite a v s).Inv := by
  unfold hostWrite
  split_ifs
  · exact ctrlWrite_inv h v
  · exact h
  · exact idleWrite_inv h a v

/-! ## Kept by the engine and by every step -/

theorem exec_inv {i : Instr} {s t : State} (h : s.Inv) (ht : exec i s = .next t) : t.Inv := by
  rcases exec_cases ht with ⟨k, rfl⟩ | ⟨rd, v, -, hv, rfl⟩ | ⟨f, -, hf, rfl⟩ | ⟨ra, -, rfl⟩
  · exact takeFault_inv h k
  · exact finish_inv (setX_inv h rd hv)
  · exact finish_inv (withFlags_inv h (hf h.flagsOneHot))
  · exact finish_inv (storeImage_inv h _)

theorem runCommand_inv {s t : State} (h : s.Inv) (ht : runCommand s = .next t) : t.Inv := by
  cases hd : decode s.cmd with
  | ok i => exact exec_inv h (runCommand_ok hd ▸ ht)
  | error r =>
    obtain rfl := Host.Outcome.next.inj (runCommand_error hd ▸ ht)
    exact takeFault_inv h .illegalCommand

theorem engineTurn_inv {s t : State} (h : s.Inv) (ht : engineTurn s = .next t) : t.Inv := by
  unfold engineTurn at ht
  split at ht
  · exact runCommand_inv h ht
  · exact Host.Outcome.next.inj ht ▸ h

theorem perform_inv {e : Event} {s t : State} (h : s.Inv) (ht : perform e s = .next t) : t.Inv := by
  cases e with
  | read a => exact Host.Outcome.next.inj ht ▸ withReplies_inv h _
  | write a v => exact Host.Outcome.next.inj ht ▸ hostWrite_inv h a v
  | hardReset => exact Host.Outcome.next.inj ht ▸ resetMae_inv s
  | engine => exact engineTurn_inv h ht

theorem step_inv {s t : State} (h : s.Inv) (ht : step s = .next t) : t.Inv := by
  cases hs : s.script with
  | nil => exact engineTurn_inv h (step_nil hs ▸ ht)
  | cons e rest => exact perform_inv (withScript_inv h rest) (step_cons hs ▸ ht)

theorem reaches_inv {s t : State} (h : s.Inv) (hr : Reaches s t) : t.Inv := by
  induction hr with
  | refl => exact h
  | tail _ hstep ih => exact step_inv ih hstep

/-! ## The compare flags and what the host reads, as R30 states them -/

/-- R30 (c), spelled out. -/
theorem Flags.OneHot.cases {f : Flags} (h : f.OneHot) :
    (f.lt = false ∧ f.eq = false ∧ f.gt = false) ∨ (f.lt = true ∧ f.eq = false ∧ f.gt = false) ∨
    (f.lt = false ∧ f.eq = true ∧ f.gt = false) ∨ (f.lt = false ∧ f.eq = false ∧ f.gt = true) := by
  obtain ⟨lt, eq, gt, even, zero⟩ := f
  revert h
  cases lt <;> cases eq <;> cases gt <;> simp [Flags.OneHot]

theorem errValue_le (s : State) : errValue s ≤ 5 := by
  unfold errValue
  split
  · decide
  · next k _ => cases k <;> decide

theorem hostRead_err (s : State) : hostRead s 0x0002 = BitVec.ofNat 64 (errValue s) := by
  simp [hostRead, hostReg_err]

theorem hostRead_xlen (s : State) : hostRead s 0x0006 = s.xlen.setWidth 64 := by
  simp [hostRead, hostReg_xlen]

theorem hostRead_xsign (s : State) : hostRead s 0x0005 = BitVec.ofNat 64 s.xsign.toNat := by
  simp [hostRead, hostReg_xsign]

/-- Settles O23: R30 (a), (b) and (c) are parts of `State.Inv`, which holds at reset and is kept by every step; (d) and
(e) are bounds on what ERR, XLEN and XSIGN can read as. -/
theorem reachableStatesMeetTheInvariants : Obligations.ReachableStatesMeetTheInvariants := by
  unfold Obligations.ReachableStatesMeetTheInvariants
  intro p script s hr
  have inv : s.Inv := reaches_inv (withScript_inv (resetOf_inv p) script) hr
  refine ⟨inv.regsFit, inv.busyClean, inv.flagsOneHot.cases, ?_, ?_, ?_⟩
  · rw [hostRead_err, BitVec.toNat_ofNat]
    exact (Nat.mod_le _ _).trans (errValue_le s)
  · rw [hostRead_xlen, BitVec.toNat_setWidth]
    exact (Nat.mod_le _ _).trans_lt s.xlen.isLt
  · rw [hostRead_xsign, BitVec.toNat_ofNat]
    exact (Nat.mod_le _ _).trans_lt (Bool.toNat_lt s.xsign)

end Sys2Proof.Machine
end

section
/-! The host's accesses (spec 20_memory.md R34, R40 to R42): what a write does at each address of the map, and which
bits of the written word and which parts of the state an access depends on. -/

namespace Sys2Proof.Machine

/-! ## The map, read backwards -/

theorem hostReg_eq_cmd_iff (p : Params) (a : Addr) : hostReg p a = .cmd ↔ a = 0x0000#13 := by
  constructor
  · intro h
    unfold hostReg at h
    split_ifs at h with h0
    exact BitVec.eq_of_toNat_eq h0
  · rintro rfl
    exact hostReg_cmd p

theorem hostReg_eq_status_iff (p : Params) (a : Addr) : hostReg p a = .status ↔ a = 0x0001#13 := by
  constructor
  · intro h
    unfold hostReg at h
    split_ifs at h with h0 h1
    exact BitVec.eq_of_toNat_eq h1
  · rintro rfl
    exact hostReg_status p

/-! ## A step that is a host access -/

theorem step_read (s : State) (a : Addr) (rest : List Event) :
    step { s with script := .read a :: rest } =
      .next { s with script := rest, replies := hostRead s a :: s.replies } :=
  step_cons (s := { s with script := .read a :: rest }) rfl

theorem step_write (s : State) (a : Addr) (v : Word) (rest : List Event) :
    step { s with script := .write a v :: rest } = .next (hostWrite a v { s with script := rest }) :=
  step_cons (s := { s with script := .write a v :: rest }) rfl

theorem step_write_of_hostWrite_eq {s t : State} {a : Addr} {v : Word} {rest : List Event}
    (h : hostWrite a v { s with script := rest } = t) :
    step { s with script := .write a v :: rest } = .next t := by rw [step_write, h]

/-! ## Writes while BUSY = 0 (R40) -/

theorem issue_of_err_eq_none (v : Word) {s : State} (h : s.err = none) :
    issue v s = { s with cmd := v.setWidth 32, busy := true } := by simp [issue, h]

theorem issue_of_err_ne_none (v : Word) {s : State} (h : s.err ≠ none) : issue v s = s := by
  simp [issue, Option.isSome_iff_ne_none.mpr h]

theorem idleWrite_cmd (v : Word) (s : State) : idleWrite 0x0000#13 v s = issue v s := by
  simp [idleWrite, hostReg_cmd]

theorem idleWrite_xsign (v : Word) (s : State) : idleWrite 0x0005#13 v s = { s with xsign := v.getLsbD 0 } := by
  simp [idleWrite, hostReg_xsign]

theorem idleWrite_xlen (v : Word) (s : State) : idleWrite 0x0006#13 v s = { s with xlen := v.setWidth 16 } := by
  simp [idleWrite, hostReg_xlen]

theorem idleWrite_xlimb (v : Word) {s : State} {i : Nat} (hi : i < s.params.maxLimbs) :
    idleWrite (BitVec.ofNat 13 (0x1000 + i)) v s =
      { s with xlimb := s.xlimb.write i (v.toNat % 2 ^ s.params.limbBits) } := by
  simp only [idleWrite, hostReg_xlimb s.params hi]

theorem xlimbAddr_ne_ctrl {p : Params} {i : Nat} (hi : i < p.maxLimbs) :
    BitVec.ofNat 13 (0x1000 + i) ≠ 0x0004#13 := by
  simp [← hostReg_eq_ctrl_iff p, hostReg_xlimb p hi]

/-- Settles O9: each of the four writes reaches `idleWrite`, and at a limb's address a read after the write tells what
it changed. -/
theorem hostWritesWhileIdle : Obligations.HostWritesWhileIdle := by
  unfold Obligations.HostWritesWhileIdle
  intro s v rest hb
  have idle {a : Addr} (ha : a ≠ 0x0004#13) :
      hostWrite a v { s with script := rest } = idleWrite a v { s with script := rest } :=
    hostWrite_idle v ha hb
  have low {n : Nat} (hn : n ≤ 64) : v.extractLsb' 0 n = v.setWidth n := (BitVec.setWidth_eq_extractLsb' hn).symm
  rw [low (by decide), low (by decide)]
  refine ⟨fun he => step_write_of_hostWrite_eq ?_, fun he => step_write_of_hostWrite_eq ?_,
    step_write_of_hostWrite_eq ?_, step_write_of_hostWrite_eq ?_, fun hwf i hi => ?_⟩
  · exact (idle (by decide)).trans ((idleWrite_cmd v _).trans (issue_of_err_eq_none v he))
  · exact (idle (by decide)).trans ((idleWrite_cmd v _).trans (issue_of_err_ne_none v he))
  · exact (idle (by decide)).trans (idleWrite_xsign v _)
  · exact (idle (by decide)).trans (idleWrite_xlen v _)
  · have written := (idle (xlimbAddr_ne_ctrl hi)).trans (idleWrite_xlimb v hi)
    refine ⟨_, step_write_of_hostWrite_eq written, ?_, fun j hj => ?_, rfl⟩
    · simp [State.limbAt, Memory.read_write _ _ _ _ hwf.1]
    · simp [State.limbAt, Memory.read_write _ _ _ _ hwf.1, hj]

/-! ## Accesses while BUSY = 1 (R41) -/

/-- Of all words the host can read, CMD and BUSY show in those of CMD and STATUS only. -/
theorem hostRead_withCmdBusy (s : State) (w : CmdWord) (b : Bool) {a : Addr} (h0 : a ≠ 0x0000#13)
    (h1 : a ≠ 0x0001#13) :
    hostRead { s with cmd := w, busy := b } a = hostRead s a := by
  have hcmd : hostReg s.params a ≠ .cmd := by simpa [hostReg_eq_cmd_iff] using h0
  have hstatus : hostReg s.params a ≠ .status := by simpa [hostReg_eq_status_iff] using h1
  unfold hostRead
  cases h : hostReg s.params a with
  | cmd => exact absurd h hcmd
  | status => exact absurd h hstatus
  | _ => rfl

theorem hostRead_status (s : State) : hostRead s 0x0001#13 = BitVec.ofNat 64 (statusValue s) := by
  simp [hostRead, hostReg_status]

theorem hostRead_status_bit0 (s : State) : (hostRead s 0x0001#13).getLsbD 0 = s.busy := by
  rw [hostRead_status]
  cases hb : s.busy <;> cases he : s.err.isSome <;> simp [statusValue, hb, he]

/-- Settles O10: with BUSY = 1 a write is dropped before its address is looked at (but for CTRL), a read is recorded,
and the words read depend on CMD and BUSY at CMD and STATUS only. -/
theorem hostAccessesWhileBusy : Obligations.HostAccessesWhileBusy := by
  unfold Obligations.HostAccessesWhileBusy
  intro s a rest
  refine ⟨fun hb v ha => ?_, fun _ => step_read s a rest, fun w => hostRead_withCmdBusy s w true, fun hb => ?_⟩
  · exact step_write_of_hostWrite_eq (hostWrite_busy v ha hb)
  · exact (hostRead_status_bit0 s).trans hb

/-! ## Writes to CTRL (R42) -/

theorem ctrlWrite_reset {v : Word} (s : State) (h0 : v.getLsbD 0 = true) : ctrlWrite v s = resetMae s := by
  simp only [ctrlWrite, h0, if_true]

theorem ctrlWrite_acknowledge {v : Word} {s : State} (h0 : v.getLsbD 0 = false) (h1 : v.getLsbD 1 = true)
    (hb : s.busy = false) : ctrlWrite v s = acknowledge s := by
  simp [ctrlWrite, h0, h1, hb, -BitVec.getLsbD_eq_getElem]

theorem ctrlWrite_nothing {v : Word} {s : State} (h0 : v.getLsbD 0 = false)
    (h1 : v.getLsbD 1 = false ∨ s.busy = true) : ctrlWrite v s = s := by
  rcases h1 with h1 | h1 <;> simp [ctrlWrite, h0, h1, -BitVec.getLsbD_eq_getElem]

/-- Settles O11: a write to CTRL is `ctrlWrite` in every phase, with one equation for each of its three actions. -/
theorem hostWritesToCtrl : Obligations.HostWritesToCtrl := by
  unfold Obligations.HostWritesToCtrl
  intro s v rest
  have ctrl : hostWrite 0x0004 v { s with script := rest } = ctrlWrite v { s with script := rest } := hostWrite_ctrl v _
  refine ⟨fun h0 => ?_, fun h0 h1 hb => ?_, fun h0 h1 => ?_⟩
  · exact step_write_of_hostWrite_eq (ctrl.trans (ctrlWrite_reset _ h0))
  · exact step_write_of_hostWrite_eq (ctrl.trans (ctrlWrite_acknowledge h0 h1 hb))
  · exact step_write_of_hostWrite_eq (ctrl.trans (ctrlWrite_nothing h0 h1))

/-! ## Reserved addresses, read-only registers and undefined bits (R34) -/

theorem hostRead_ctrl (s : State) : hostRead s 0x0004#13 = 0 := by simp [hostRead, hostReg_ctrl]

theorem hostRead_reserved (s : State) {a : Addr}
    (h : (0x0007 ≤ a.toNat ∧ a.toNat < 0x1000) ∨ 0x1000 + s.params.maxLimbs ≤ a.toNat) : hostRead s a = 0 := by
  simp [hostRead, hostReg_reserved s.params h]

/-- A write to an address that names a reserved place or a read-only register is ignored in every phase. -/
theorem hostWrite_of_not_writable {a : Addr} (v : Word) {s : State}
    (h : hostReg s.params a ∈ [HostReg.reserved, .status, .err, .flags]) : hostWrite a v s = s := by
  have notCtrl : hostReg s.params a ≠ .ctrl := by rintro e; simp [e] at h
  have idle : idleWrite a v s = s := by
    simp only [List.mem_cons, List.not_mem_nil, or_false] at h
    rcases h with h | h | h | h <;> simp [idleWrite, h]
  simp [hostWrite, notCtrl, idle]

/-- A register of `n` bits takes the low `n` bits of a word and no others. -/
theorem setWidth_eq_of_getLsbD_eq {v w : Word} {n : Nat} (h : ∀ b, b < n → v.getLsbD b = w.getLsbD b) :
    v.setWidth n = w.setWidth n :=
  BitVec.eq_of_getLsbD_eq fun b hb => by simp [hb, h b hb]

theorem ctrlWrite_congr {v w : Word} (s : State) (h0 : v.getLsbD 0 = w.getLsbD 0) (h1 : v.getLsbD 1 = w.getLsbD 1) :
    ctrlWrite v s = ctrlWrite w s := by
  simp only [ctrlWrite, h0, h1]

theorem hostWrite_congr {a : Addr} {v w : Word} {s : State} (ha : a ≠ 0x0004#13)
    (h : idleWrite a v s = idleWrite a w s) : hostWrite a v s = hostWrite a w s := by
  simp only [hostWrite, hostReg_eq_ctrl_iff, ha, if_false, h]

/-- A write to CMD, CTRL, XSIGN or XLEN depends on the register's own bits of the word only. -/
theorem hostWrite_eq_of_getLsbD_eq {r : Addr × Nat}
    (hr : r ∈ [((0x0000 : Addr), 32), (0x0004, 2), (0x0005, 1), (0x0006, 16)]) {v w : Word}
    (h : ∀ b, b < r.2 → v.getLsbD b = w.getLsbD b) (s : State) : hostWrite r.1 v s = hostWrite r.1 w s := by
  simp only [List.mem_cons, List.not_mem_nil, or_false, BitVec.ofNat_eq_ofNat] at hr
  rcases hr with rfl | rfl | rfl | rfl
  · refine hostWrite_congr (by decide) ?_
    rw [idleWrite_cmd, idleWrite_cmd, issue, issue, setWidth_eq_of_getLsbD_eq h]
  · rw [hostWrite_ctrl, hostWrite_ctrl, ctrlWrite_congr s (h 0 (by decide)) (h 1 (by decide))]
  · refine hostWrite_congr (by decide) ?_
    rw [idleWrite_xsign, idleWrite_xsign, h 0 (by decide)]
  · refine hostWrite_congr (by decide) ?_
    rw [idleWrite_xlen, idleWrite_xlen, setWidth_eq_of_getLsbD_eq h]

/-- Settles O13: the map sends the reserved addresses to `.reserved`, which reads 0 and, like the read-only registers,
ignores writes; of the other control registers a write sees the defined bits only. -/
theorem reservedAndReadOnlyAccesses : Obligations.ReservedAndReadOnlyAccesses := by
  unfold Obligations.ReservedAndReadOnlyAccesses
  intro s a rest
  refine ⟨hostRead_reserved s, hostRead_ctrl s, fun ha v => ?_, fun r hr v w h => ?_⟩
  · have notWritable : hostReg s.params a ∈ [HostReg.reserved, .status, .err, .flags] := by
      rcases ha with ha | ha | rfl | rfl | rfl
      · simp [hostReg_reserved s.params (.inl ha)]
      · simp [hostReg_reserved s.params (.inr ha)]
      · simp [hostReg_status]
      · simp [hostReg_err]
      · simp [hostReg_flags]
    exact step_write_of_hostWrite_eq (hostWrite_of_not_writable v notWritable)
  · rw [step_write, step_write, hostWrite_eq_of_getLsbD_eq hr h]

end Sys2Proof.Machine
end

section
/-! Illegal words (spec 30_encoding.md R53 to R55). Every test the decoder makes of a word is a test of masked bits, so a
word that decodes matches a row of the opcode map, and a word that matches none is rejected. -/

namespace Sys2Proof

/-! ## The fields of a word as masked bits -/

/-- A mask of `width` ones from bit `lo` up keeps the field there, in its place. -/
theorem toNat_and_fieldMask (w : CmdWord) {m : CmdWord} {lo width : Nat} (hm : m.toNat = (2 ^ width - 1) * 2 ^ lo) :
    (w &&& m).toNat = bitsOf w lo width * 2 ^ lo := by
  rw [BitVec.toNat_and, hm, bitsOf, ← Nat.shiftRight_eq_div_pow, ← Nat.shiftLeft_eq, ← Nat.shiftLeft_eq]
  refine Nat.eq_of_testBit_eq fun b => ?_
  rcases Nat.lt_or_ge b lo with hb | hb
  · simp [Nat.not_le.mpr hb]
  · simp [hb, Nat.add_sub_cancel' hb, Bool.and_comm]

theorem bitsOf_eq_zero_iff (w : CmdWord) {m : CmdWord} {lo width : Nat} (hm : m.toNat = (2 ^ width - 1) * 2 ^ lo) :
    bitsOf w lo width = 0 ↔ w &&& m = 0 := by
  rw [← BitVec.toNat_inj, toNat_and_fieldMask w hm]
  simp

theorem and_opMask {w : CmdWord} {op : Nat} (hop : opField w = op) :
    w &&& 0xFF000000 = BitVec.ofNat 32 (op * 2 ^ 24) := by
  rw [← hop, opField, ← toNat_and_fieldMask w (m := 0xFF000000) (by decide), BitVec.ofNat_toNat, BitVec.setWidth_eq]

/-! ## The decoder's tests of unused fields -/

/-- The test `b` of the word `w` says exactly that `w` has no bit of the mask `m`. -/
def TestsMask (w : CmdWord) (b : Bool) (m : CmdWord) : Prop := b = true ↔ w &&& m = 0

theorem TestsMask.and {w m n : CmdWord} {b c : Bool} (hb : TestsMask w b m) (hc : TestsMask w c n) :
    TestsMask w (b && c) (m ||| n) := by
  unfold TestsMask at *
  rw [Bool.and_eq_true, hb, hc, BitVec.and_or_distrib_left]
  exact BitVec.or_eq_zero_iff.symm

theorem testsMask_regField (w : CmdWord) {m : CmdWord} {lo : Nat} (hm : m.toNat = (2 ^ 4 - 1) * 2 ^ lo) :
    TestsMask w (regField w lo == 0) m := by
  have bound : bitsOf w lo 4 < 16 := Nat.mod_lt _ (by decide)
  rw [TestsMask, beq_iff_eq, ← bitsOf_eq_zero_iff w hm, regField, Fin.ext_iff, Fin.val_ofNat, Nat.mod_eq_of_lt bound]
  rfl

theorem testsMask_rd (w : CmdWord) : TestsMask w (rdField w == 0) 0x00F00000 := testsMask_regField w (by decide)
theorem testsMask_ra (w : CmdWord) : TestsMask w (raField w == 0) 0x000F0000 := testsMask_regField w (by decide)
theorem testsMask_rb (w : CmdWord) : TestsMask w (rbField w == 0) 0x0000F000 := testsMask_regField w (by decide)
theorem testsMask_rm (w : CmdWord) : TestsMask w (rmField w == 0) 0x00000F00 := testsMask_regField w (by decide)

theorem testsMask_z (w : CmdWord) : TestsMask w (zField w == 0) 0x000000FF := by
  rw [TestsMask, beq_iff_eq]
  exact bitsOf_eq_zero_iff w (by decide)

/-! ## A word that decodes matches a row -/

/-- The word `w` matches a row of the opcode map. -/
def MatchesARow (w : CmdWord) : Prop := ∃ row ∈ opcodeTable, w &&& row.mask = row.pattern

theorem requireUnused_ok {zero : Bool} {i j : Instr} (h : requireUnused zero i = .ok j) : zero = true := by
  cases zero with
  | true => rfl
  | false => cases h

/-- A format R word with the opcode of a row, whose bits under the rest of the row's mask the decoder has tested. -/
theorem matchesARow_of_requireUnused {w m : CmdWord} {op : Nat} {zero : Bool} {i j : Instr} (mnemonic : String)
    (hop : opField w = op) (hm : TestsMask w zero m) (h : requireUnused zero i = .ok j)
    (row : ⟨mnemonic, op, BitVec.ofNat 32 (op * 2 ^ 24), 0xFF000000 ||| m⟩ ∈ opcodeTable) : MatchesARow w := by
  refine ⟨_, row, ?_⟩
  have unused : w &&& m = 0 := hm.mp (requireUnused_ok h)
  rw [BitVec.and_or_distrib_left, and_opMask hop, unused]
  exact BitVec.or_zero

theorem matchesARow_of_decode {w : CmdWord} {i : Instr} (h : decode w = .ok i) : MatchesARow w := by
  have rd := testsMask_rd w
  have ra := testsMask_ra w
  have rb := testsMask_rb w
  have rm := testsMask_rm w
  have z := testsMask_z w
  unfold decode at h
  split at h
  next hop => exact ⟨⟨"LDI", 0x01, 0x01000000, 0xFF000000⟩, by decide, and_opMask hop⟩
  next hop => exact matchesARow_of_requireUnused "LOAD" hop (((ra.and rb).and rm).and z) h (by decide)
  next hop => exact matchesARow_of_requireUnused "STORE" hop (((rd.and rb).and rm).and z) h (by decide)
  next hop => exact matchesARow_of_requireUnused "ADD" hop (rm.and z) h (by decide)
  next hop => exact matchesARow_of_requireUnused "SUB" hop (rm.and z) h (by decide)
  next hop => exact matchesARow_of_requireUnused "MUL" hop (rm.and z) h (by decide)
  next hop => exact matchesARow_of_requireUnused "MOD" hop (rb.and z) h (by decide)
  next hop => exact matchesARow_of_requireUnused "CMP" hop ((rd.and rm).and z) h (by decide)
  next hop => exact matchesARow_of_requireUnused "ISEVEN" hop (((rd.and rb).and rm).and z) h (by decide)
  next hop => exact matchesARow_of_requireUnused "ISZERO" hop (((rd.and rb).and rm).and z) h (by decide)
  next hop => exact matchesARow_of_requireUnused "MULMOD" hop z h (by decide)
  next hop => exact matchesARow_of_requireUnused "MODEXP" hop z h (by decide)
  next hop => exact matchesARow_of_requireUnused "GCD" hop (rm.and z) h (by decide)
  next hop => exact matchesARow_of_requireUnused "MODINV" hop (rb.and z) h (by decide)
  next => cases h

theorem decode_error_of_no_row {w : CmdWord} (h : ∀ row ∈ opcodeTable, w &&& row.mask ≠ row.pattern) :
    ∃ r, decode w = .error r := by
  cases hd : decode w with
  | error r => exact ⟨r, rfl⟩
  | ok i =>
    obtain ⟨row, hrow, matched⟩ := matchesARow_of_decode hd
    exact absurd matched (h row hrow)

namespace Machine

/-! ## The machine on such a word -/

theorem step_engine_of_busy {s : State} (hb : s.busy = true) (rest : List Event) :
    step { s with script := .engine :: rest } = runCommand { s with script := rest } := by
  rw [step_cons (s := { s with script := .engine :: rest }) rfl]
  exact if_pos hb

/-- Settles O6: a word that matches no row does not decode, so the engine's turn is the fault IllegalCommand; the write
that issues a word does not look at it; the unassigned opcodes are counted. -/
theorem illegalWordsFault : Obligations.IllegalWordsFault := by
  unfold Obligations.IllegalWordsFault
  refine ⟨fun s rest hb hrow => ?_, fun s v rest hb he _ => step_write_of_hostWrite_eq ?_, by decide +kernel⟩
  · obtain ⟨r, rejected⟩ := decode_error_of_no_row hrow
    exact (step_engine_of_busy hb rest).trans (runCommand_error (s := { s with script := rest }) rejected)
  · have idle := hostWrite_idle (a := 0x0000#13) (s := { s with script := rest }) v (by decide) hb
    exact idle.trans ((idleWrite_cmd v _).trans (issue_of_err_eq_none v he))

end Machine

end Sys2Proof
end

section
/-! The BigInt commands (spec 40_bigint.md R61 to R71). A command's word is the one the encoder writes, so decoding
it is one lemma; its completion is a checked register write, a flag write or the buffer's image, with one equation each. -/

namespace Sys2Proof

/-! ## The words of the commands -/

/-- The decoder reads every field of the encoder's word back, and finds 0 in the fields that the command does not
use. -/
theorem decode_encode_of_wellFormed {i : Instr} (h : WellFormed i = true) : decode (encode i) = .ok i := by
  cases i with
  | ldi rd imm =>
    have bound : imm < 2 ^ 20 := of_decide_eq_true h
    simpa [decode, encode, opField_wordI, rdField_wordI, immField_wordI] using bound
  | _ =>
    simp [decode, encode, requireUnused, opField_wordR, rdField_wordR, raField_wordR, rbField_wordR, rmField_wordR,
      zField_wordR]

theorem decode_of_encode_eq {i : Instr} {w : CmdWord} (h : WellFormed i = true) (hw : encode i = w) :
    decode w = .ok i := hw ▸ decode_encode_of_wellFormed h

/-- LDI's word with the immediate in place, which fits its 20 bits. -/
theorem encode_ldi (rd : Reg) {imm : Nat} (h : imm < 2 ^ 20) :
    encode (.ldi rd imm) = BitVec.ofNat 32 (0x01 * 2 ^ 24 + rd.val * 2 ^ 20 + imm) := by
  rw [encode, wordI, immBound, Nat.mod_eq_of_lt h]

theorem Params.thirtyTwo_le_capacity (p : Params) : 32 ≤ p.capacity := by
  have width : 32 ≤ p.limbBits := by unfold Params.limbBits; cases p.limbWidth <;> decide
  exact width.trans (Nat.le_mul_of_pos_right _ p.one_le_maxLimbs)

namespace Machine

/-! ## The completion of a checked register write -/

theorem complete_writeReg_of_lt {s : State} {v : Int} (rd : Reg) (h : v.natAbs < 2 ^ s.params.capacity) :
    complete (writeReg s.params rd v) s = .next { s with regs := s.regs.set rd v, busy := false } := by
  rw [writeReg_of_lt rd h]; rfl

theorem complete_writeReg_of_le {s : State} {v : Int} (rd : Reg) (h : 2 ^ s.params.capacity ≤ v.natAbs) :
    complete (writeReg s.params rd v) s = .next { s with err := some .overflow, busy := false } := by
  rw [writeReg_of_le rd h]; rfl

/-- Settles O30: a 20-bit immediate is within every capacity. -/
theorem ldiWritesItsImmediate : Obligations.LdiWritesItsImmediate := by
  unfold Obligations.LdiWritesItsImmediate
  intro s rd imm himm
  have capacity : 2 ^ 20 ≤ 2 ^ s.params.capacity :=
    Nat.pow_le_pow_right (by decide) (by have := s.params.thirtyTwo_le_capacity; omega)
  exact ⟨decode_of_encode_eq (decide_eq_true himm) (encode_ldi rd himm),
    complete_writeReg_of_lt rd (himm.trans_le capacity)⟩

/-- Settles O34: the sum is written by the checked write. -/
theorem addIsExact : Obligations.AddIsExact := by
  unfold Obligations.AddIsExact
  intro s rd ra rb
  exact ⟨decode_of_encode_eq rfl (by simp [encode, wordR]), complete_writeReg_of_lt rd, complete_writeReg_of_le rd⟩

/-- The difference of two values of like sign is no larger than the larger of them. -/
theorem natAbs_sub_lt_of_like_sign {a b : Int} {n : Nat} (ha : a.natAbs < n) (hb : b.natAbs < n)
    (h : (0 ≤ a ∧ 0 ≤ b) ∨ (a < 0 ∧ b < 0)) : (a - b).natAbs < n := by
  omega

/-- Settles O35: the difference is written by the checked write, and operands of like sign keep it within capacity. -/
theorem subIsExact : Obligations.SubIsExact := by
  unfold Obligations.SubIsExact
  intro s rd ra rb
  refine ⟨decode_of_encode_eq rfl (by simp [encode, wordR]), complete_writeReg_of_lt rd, complete_writeReg_of_le rd,
    fun fit sign => ?_⟩
  exact complete_writeReg_of_lt rd (natAbs_sub_lt_of_like_sign (fit ra) (fit rb) sign)

/-! ## The length of a product -/

section
variable {w : Nat} (hw : 0 < w)
include hw

theorem natAbs_lt_pow_nlimbs (v : Int) : v.natAbs < 2 ^ (w * nlimbs w v) :=
  (nlimbs_le_iff hw v (one_le_nlimbs w v)).mp le_rfl

/-- The limbs of a value other than 0 are all needed. -/
theorem pow_pred_nlimbs_le_natAbs {v : Int} (hv : v ≠ 0) : 2 ^ (w * (nlimbs w v - 1)) ≤ v.natAbs := by
  rcases (one_le_nlimbs w v).eq_or_lt with h1 | h2
  · rw [← h1]; simpa [Nat.one_le_iff_ne_zero] using hv
  · by_contra! small
    have := (nlimbs_le_iff hw v (n := nlimbs w v - 1) (by omega)).mpr small
    omega

theorem nlimbs_mul_le (a b : Int) : nlimbs w (a * b) ≤ nlimbs w a + nlimbs w b := by
  rw [nlimbs_le_iff hw _ (by have := one_le_nlimbs w a; omega), Int.natAbs_mul, Nat.mul_add, pow_add]
  exact Nat.mul_lt_mul'' (natAbs_lt_pow_nlimbs hw a) (natAbs_lt_pow_nlimbs hw b)

theorem nlimbs_add_le_nlimbs_mul {a b : Int} (ha : a ≠ 0) (hb : b ≠ 0) :
    nlimbs w a + nlimbs w b ≤ nlimbs w (a * b) + 1 := by
  have large : 2 ^ (w * (nlimbs w a - 1 + (nlimbs w b - 1))) < 2 ^ (w * nlimbs w (a * b)) := by
    calc 2 ^ (w * (nlimbs w a - 1 + (nlimbs w b - 1)))
        = 2 ^ (w * (nlimbs w a - 1)) * 2 ^ (w * (nlimbs w b - 1)) := by rw [Nat.mul_add, pow_add]
      _ ≤ a.natAbs * b.natAbs :=
        Nat.mul_le_mul (pow_pred_nlimbs_le_natAbs hw ha) (pow_pred_nlimbs_le_natAbs hw hb)
      _ = (a * b).natAbs := (Int.natAbs_mul a b).symm
      _ < 2 ^ (w * nlimbs w (a * b)) := natAbs_lt_pow_nlimbs hw (a * b)
  have := Nat.lt_of_mul_lt_mul_left ((Nat.pow_lt_pow_iff_right (by decide)).mp large)
  omega

end

/-- Settles O36: the product is written by the checked write; its length follows from the bounds that limb counts put
on magnitudes, which multiply. -/
theorem mulIsExact : Obligations.MulIsExact := by
  unfold Obligations.MulIsExact
  intro s rd ra rb
  refine ⟨decode_of_encode_eq rfl (by simp [encode, wordR]), complete_writeReg_of_lt rd, complete_writeReg_of_le rd,
    fun ha hb => ⟨?_, ?_⟩⟩
  · exact nlimbs_mul_le s.params.limbBits_pos _ _
  · exact nlimbs_add_le_nlimbs_mul s.params.limbBits_pos ha hb

/-! ## MOD -/

theorem eq_fdiv_mul_add_emod (a m : Int) : a = fdiv a m * m + emod a m := by
  unfold emod; ring

theorem execMod_of_checkMod_error {s : State} {rm : Reg} {k : ErrKind} (rd ra : Reg)
    (h : checkMod (s.x rm) = .error k) : exec (.mod rd ra rm) s = .next { s with err := some k, busy := false } := by
  rw [exec, execMod, h]; rfl

theorem execMod_of_pos {s : State} {rm : Reg} (rd ra : Reg) (h : 0 < s.x rm) :
    exec (.mod rd ra rm) s = complete (writeReg s.params rd (emod (s.x ra) (s.x rm))) s := by
  rw [exec, execMod, checkMod_pos h]; rfl

/-- Settles O37: the floor quotient and remainder are the q and r, and the remainder is within capacity because it is
below the modulus. -/
theorem modIsTheFloorRemainder : Obligations.ModIsTheFloorRemainder := by
  unfold Obligations.ModIsTheFloorRemainder
  intro s rd ra rm fit
  refine ⟨decode_of_encode_eq rfl (by simp [encode, wordR]), fun pos => ?_, fun zero => ?_, fun neg => ?_⟩
  · have low := emod_nonneg (s.x ra) pos
    have high := emod_lt (s.x ra) pos
    have within : (emod (s.x ra) (s.x rm)).natAbs < 2 ^ s.params.capacity := by
      have := fit rm
      omega
    exact ⟨fdiv (s.x ra) (s.x rm), _, eq_fdiv_mul_add_emod _ _, low, high,
      (execMod_of_pos rd ra pos).trans (complete_writeReg_of_lt rd within)⟩
  · exact execMod_of_checkMod_error rd ra (zero ▸ checkMod_zero)
  · exact execMod_of_checkMod_error rd ra (checkMod_neg neg)

/-! ## LOAD -/

theorem limbSum_eq_sum (w : Nat) (m : Memory) (n : Nat) :
    (limbSum w m n : Int) = ∑ i ∈ Finset.range n, (m.read i : Int) * 2 ^ (w * i) := by
  induction n with
  | zero => rfl
  | succ n ih => rw [Finset.sum_range_succ, ← ih, limbSum]; push_cast; rfl

theorem bufferValue_eq_signed_sum {s : State} (h : s.xlen.toNat ≤ s.params.maxLimbs) :
    bufferValue s = .ok ((if s.xsign then -1 else 1) *
      ∑ i ∈ Finset.range s.xlen.toNat, (s.limbAt i : Int) * 2 ^ (s.params.limbBits * i)) := by
  rw [bufferValue_of_le h, limbSum_eq_sum]
  cases s.xsign with
  | true => simp [State.limbAt]
  | false => simp [State.limbAt]

/-- Limbs of W bits, at most L of them, weigh up to less than the capacity. -/
theorem natAbs_bufferValue_lt {s : State} {v : Int} (hwf : Memory.wf s.params s.xlimb)
    (h : s.xlen.toNat ≤ s.params.maxLimbs) (hv : bufferValue s = .ok v) : v.natAbs < 2 ^ s.params.capacity := by
  have weight : limbSum s.params.limbBits s.xlimb s.xlen.toNat < 2 ^ s.params.capacity :=
    (limbSum_lt (Memory.read_lt hwf) _).trans_le (Nat.pow_le_pow_right (by decide) (Nat.mul_le_mul_left _ h))
  rw [bufferValue_of_le h] at hv
  obtain rfl := Except.ok.inj hv
  split <;> simpa using weight

theorem execLoad_of_error {s : State} {k : ErrKind} (rd : Reg) (h : bufferValue s = .error k) :
    exec (.load rd) s = .next { s with err := some k, busy := false } := by
  rw [exec, execLoad, h]; rfl

theorem execLoad_of_ok {s : State} {v : Int} (rd : Reg) (h : bufferValue s = .ok v) :
    exec (.load rd) s = complete (writeReg s.params rd v) s := by
  rw [exec, execLoad, h]; rfl

/-- Settles O31: the buffer's value is the signed weighted sum, which canonical limbs keep within capacity. -/
theorem loadWritesTheBufferValue : Obligations.LoadWritesTheBufferValue := by
  unfold Obligations.LoadWritesTheBufferValue
  intro s rd hwf
  refine ⟨decode_of_encode_eq rfl (by simp [encode, wordR]), fun hlen => ?_, fun hlen => ?_⟩
  · have value := bufferValue_eq_signed_sum hlen
    exact (execLoad_of_ok rd value).trans (complete_writeReg_of_lt rd (natAbs_bufferValue_lt hwf hlen value))
  · exact execLoad_of_error rd (bufferValue_of_lt hlen)

/-! ## STORE -/

/-- XLEN takes the limb count of a value within capacity whole. -/
theorem storeImage_xlen_toNat {v : Int} {s : State} (h : v.natAbs < 2 ^ s.params.capacity) :
    (storeImage v s).xlen.toNat = nlimbs s.params.limbBits v := by
  have count : nlimbs s.params.limbBits v ≤ s.params.maxLimbs :=
    (nlimbs_le_iff s.params.limbBits_pos v s.params.one_le_maxLimbs).mpr h
  have bound := s.params.maxLimbs_le
  rw [storeImage_xlen, BitVec.toNat_ofNat, Nat.mod_eq_of_lt (by omega)]

/-- Settles O32: the completion of STORE is the buffer's image and BUSY = 0. -/
theorem storeWritesTheImage : Obligations.StoreWritesTheImage := by
  unfold Obligations.StoreWritesTheImage
  intro s ra fit
  refine ⟨decode_of_encode_eq rfl (by simp [encode, wordR]), finish (storeImage (s.x ra) s), rfl, rfl,
    storeImage_xlen_toNat (fit ra), fun i hi => ?_, storeImage_xlimbWf (s.x ra) s, rfl⟩
  exact (storeImage_limbAt (s.x ra) s i).trans (if_pos hi)

/-! ## The commands that write flags -/

/-- Settles O38: CMP's flags are the three comparisons. -/
theorem cmpWritesTheCompareFlags : Obligations.CmpWritesTheCompareFlags := by
  unfold Obligations.CmpWritesTheCompareFlags
  intro s ra rb
  exact ⟨decode_of_encode_eq rfl (by simp [encode, wordR]), rfl⟩

/-- Settles O40: ISZERO's flag is the test for 0. -/
theorem isZeroWritesTheZeroFlag : Obligations.IsZeroWritesTheZeroFlag := by
  unfold Obligations.IsZeroWritesTheZeroFlag
  intro s ra
  exact ⟨decode_of_encode_eq rfl (by simp [encode, wordR]), rfl⟩

theorem limb_zero (w : Nat) (v : Int) : limb w v 0 = v.natAbs % 2 ^ w := by simp [limb]

/-- Limb 0 has the parity of the magnitude, since the limb base is even, and the magnitude that of the value. -/
theorem two_dvd_iff_limb_zero_even {w : Nat} (hw : 0 < w) (v : Int) : 2 ∣ v ↔ limb w v 0 % 2 = 0 := by
  rw [limb_zero, Nat.mod_mod_of_dvd _ (dvd_pow_self 2 hw.ne')]
  omega

theorem parityFlags_eq {w : Nat} (hw : 0 < w) (f : Flags) (v : Int) :
    parityFlags w f v = { f with even := decide (2 ∣ v) } := by
  simp only [parityFlags, two_dvd_iff_limb_zero_even hw]

/-- Settles O39: ISEVEN tests limb 0, which has the value's parity. -/
theorem isEvenWritesTheParity : Obligations.IsEvenWritesTheParity := by
  unfold Obligations.IsEvenWritesTheParity
  intro s ra
  refine ⟨decode_of_encode_eq rfl (by simp [encode, wordR]), ?_, ?_⟩
  · rw [exec, execIsEven, parityFlags_eq s.params.limbBits_pos]; rfl
  · simp only [two_dvd_iff_limb_zero_even s.params.limbBits_pos, limb_zero]

end Machine

end Sys2Proof
end

section
/-! The modular commands (spec 41_modular.md R76 to R85). Each command tests its operands and then writes one value
with the checked write; that value is named here in terms of the integers, and it is within capacity because it is
below the modulus, or no larger than an operand. -/

namespace Sys2Proof.Machine

/-! ## Operand tests in front of a command's arithmetic -/

theorem complete_bind_of_error {α : Type} {c : Except ErrKind α} {k : ErrKind} (f : α → CmdResult) (s : State)
    (h : c = .error k) : complete (c >>= f) s = .next { s with err := some k, busy := false } := by
  rw [h]; rfl

theorem complete_bind_of_ok {α : Type} {c : Except ErrKind α} {a : α} (f : α → CmdResult) (s : State)
    (h : c = .ok a) : complete (c >>= f) s = complete (f a) s := by
  rw [h]; rfl

section
variable {m : Int} (f : Unit → CmdResult) (s : State)

theorem complete_checkMod_of_zero (h : m = 0) :
    complete (checkMod m >>= f) s = .next { s with err := some .divisionByZero, busy := false } :=
  complete_bind_of_error f s (h ▸ checkMod_zero)

theorem complete_checkMod_of_neg (h : m < 0) :
    complete (checkMod m >>= f) s = .next { s with err := some .invalidOperand, busy := false } :=
  complete_bind_of_error f s (checkMod_neg h)

theorem complete_checkMod_of_pos (h : 0 < m) : complete (checkMod m >>= f) s = complete (f ()) s :=
  complete_bind_of_ok f s (checkMod_pos h)

end

/-- A value in [0, m) is within capacity when the modulus m is, so its checked write succeeds. -/
theorem complete_writeReg_of_lt_modulus {s : State} {m v : Int} (rd : Reg) (hm : m.natAbs < 2 ^ s.params.capacity)
    (low : 0 ≤ v) (high : v < m) :
    complete (writeReg s.params rd v) s = .next { s with regs := s.regs.set rd v, busy := false } :=
  complete_writeReg_of_lt rd (by omega)

/-! ## MULMOD -/

theorem execMulMod_of_pos {s : State} {rm : Reg} (rd ra rb : Reg) (fit : s.RegsFit) (h : 0 < s.x rm) :
    exec (.mulMod rd ra rb rm) s =
      .next { s with regs := s.regs.set rd (emod (s.x ra * s.x rb) (s.x rm)), busy := false } :=
  (complete_checkMod_of_pos _ s h).trans
    (complete_writeReg_of_lt_modulus rd (fit rm) (emod_nonneg _ h) (emod_lt _ h))

/-- MOD after MUL into a scratch register `rt` sees the exact product and the modulus of before. -/
theorem execMod_after_mul {s : State} {rt rm : Reg} (rd : Reg) (product : Int) (fit : s.RegsFit) (h : 0 < s.x rm)
    (hrt : rt ≠ rm) :
    ∃ v, exec (.mod rd rt rm) (finish (s.setX rt product)) = .next v ∧ v.x rd = emod product (s.x rm) := by
  have modulus : (finish (s.setX rt product)).x rm = s.x rm := x_setX_of_ne s rt product hrt.symm
  have dividend : (finish (s.setX rt product)).x rt = product := x_setX_same s rt product
  have run := execMod_of_pos (s := finish (s.setX rt product)) (rm := rm) rd rt (modulus ▸ h)
  rw [modulus, dividend] at run
  have written := complete_writeReg_of_lt_modulus (s := finish (s.setX rt product)) rd (fit rm)
    (emod_nonneg product h) (emod_lt product h)
  exact ⟨_, run.trans written, x_setX_same _ rd _⟩

/-- Settles O43: the floor quotient and remainder of the exact product are the q and r; MUL then MOD takes the
remainder of the same product by the same modulus. -/
theorem mulModIsTheResidue : Obligations.MulModIsTheResidue := by
  unfold Obligations.MulModIsTheResidue
  intro s rd ra rb rm fit
  refine ⟨decode_of_encode_eq rfl (by simp [encode, wordR]), fun pos => ?_, complete_checkMod_of_zero _ s,
    complete_checkMod_of_neg _ s, fun pos productFits rt hrt => ?_⟩
  · exact ⟨fdiv (s.x ra * s.x rb) (s.x rm), _, eq_fdiv_mul_add_emod _ _, emod_nonneg _ pos, emod_lt _ pos,
      execMulMod_of_pos rd ra rb fit pos⟩
  · obtain ⟨v, run, value⟩ := execMod_after_mul rd (s.x ra * s.x rb) fit pos hrt
    exact ⟨_, _, v, execMulMod_of_pos rd ra rb fit pos, complete_writeReg_of_lt rt productFits, run,
      (x_setX_same s rd _).trans value.symm⟩

/-! ## MODEXP -/

/-- R78: one iteration takes up bit i of the exponent and squares the running base. -/
theorem modExpLoop_eq_pow (b : Int) {m : Int} (e n i : Nat) (hm : 0 < m) :
    modExpLoop e m n i (b ^ (e % 2 ^ i) % m) (b ^ 2 ^ i % m) = b ^ (e % 2 ^ (i + n)) % m := by
  induction n generalizing i with
  | zero => rfl
  | succ n ih =>
    have base : emod (b ^ 2 ^ i % m * (b ^ 2 ^ i % m)) m = b ^ 2 ^ (i + 1) % m := by
      rw [emod_eq _ hm, ← Int.mul_emod, ← pow_add, pow_succ, mul_two]
    have bits : e % 2 ^ (i + 1) = e % 2 ^ i + 2 ^ i * bit e i := Nat.mod_pow_succ
    have acc : (if bit e i = 1 then emod (b ^ (e % 2 ^ i) % m * (b ^ 2 ^ i % m)) m else b ^ (e % 2 ^ i) % m) =
        b ^ (e % 2 ^ (i + 1)) % m := by
      have binary : bit e i = 0 ∨ bit e i = 1 := Nat.mod_two_eq_zero_or_one _
      rcases binary with zero | one
      · simp [bits, zero]
      · rw [if_pos one, emod_eq _ hm, ← Int.mul_emod, ← pow_add, bits, one, mul_one]
    rw [modExpLoop, acc, base, ih, Nat.add_right_comm, Nat.add_assoc]

theorem modExpValue_eq_pow (b : Int) (e : Nat) {m : Int} (hm : 0 < m) : modExpValue b e m = b ^ e % m := by
  have start := modExpLoop_eq_pow b e (bitlen e) 0 hm
  have exponent : e % 2 ^ (0 + bitlen e) = e :=
    Nat.mod_eq_of_lt ((bitlen_le_iff e _).mp (Nat.zero_add _).ge)
  rw [exponent] at start
  simpa [modExpValue, emod_eq _ hm, Nat.mod_one] using start

/-- Settles O44: the loop's value is the power, a residue of the modulus. -/
theorem modExpIsThePower : Obligations.ModExpIsThePower := by
  unfold Obligations.ModExpIsThePower
  intro s rd ra rb rm fit
  refine ⟨decode_of_encode_eq rfl (by simp [encode, wordR]), fun pos nonneg => ?_, complete_checkMod_of_zero _ s,
    complete_checkMod_of_neg _ s, fun pos neg => ?_⟩
  · have exponent : (s.x rb).natAbs = (s.x rb).toNat := by omega
    calc exec (.modExp rd ra rb rm) s
        = complete (writeReg s.params rd (modExpValue (s.x ra) (s.x rb).natAbs (s.x rm))) s :=
          (complete_checkMod_of_pos _ s pos).trans (complete_bind_of_ok _ s (checkNonneg_of_nonneg nonneg))
      _ = complete (writeReg s.params rd (s.x ra ^ (s.x rb).toNat % s.x rm)) s := by
          rw [modExpValue_eq_pow _ _ pos, exponent]
      _ = _ := complete_writeReg_of_lt_modulus rd (fit rm) (Int.emod_nonneg _ pos.ne') (Int.emod_lt_of_pos _ pos)
  · exact (complete_checkMod_of_pos _ s pos).trans (complete_bind_of_error _ s (checkNonneg_neg neg))

/-! ## GCD -/

/-- R80, R81: the loop keeps the gcd of x and y, and y decreases, so the fuel lasts. -/
theorem gcdLoop_eq_gcd {fuel : Nat} {x y : Int} (hx : 0 ≤ x) (hy : 0 ≤ y) (hfuel : y.natAbs < fuel) :
    gcdLoop fuel x y = Int.gcd x y := by
  induction fuel generalizing x y with
  | zero => omega
  | succ fuel ih =>
    rw [gcdLoop]
    split
    case isTrue zero => simp [zero, abs_of_nonneg hx]
    case isFalse nonzero =>
      have pos : 0 < y := by omega
      have low := emod_nonneg x pos
      have high := emod_lt x pos
      rw [ih hy low (by omega), emod_eq x pos, Int.gcd_comm, Int.gcd_emod]

theorem gcdValue_eq_gcd {a b : Int} (ha : 0 ≤ a) (hb : 0 ≤ b) : gcdValue a b = Int.gcd a b :=
  gcdLoop_eq_gcd ha hb (Nat.lt_succ_self _)

/-- A gcd divides both operands, so it is no larger than one of them that is not 0. -/
theorem gcd_lt_of_natAbs_lt {a b : Int} {n : Nat} (ha : a.natAbs < n) (hb : b.natAbs < n) : Int.gcd a b < n := by
  rcases eq_or_ne a 0 with rfl | nonzero
  · simpa using hb
  · exact (Nat.gcd_le_left _ (Int.natAbs_pos.mpr nonzero)).trans_lt ha

/-- Settles O46: the loop's value is the gcd, within capacity because the operands are. -/
theorem gcdIsTheGreatestCommonDivisor : Obligations.GcdIsTheGreatestCommonDivisor := by
  unfold Obligations.GcdIsTheGreatestCommonDivisor
  intro s rd ra rb fit
  refine ⟨decode_of_encode_eq rfl (by simp [encode, wordR]), fun ha hb => ?_, fun neg => ?_⟩
  · calc exec (.gcd rd ra rb) s
        = complete (writeReg s.params rd (gcdValue (s.x ra) (s.x rb))) s :=
          (complete_bind_of_ok _ s (checkNonneg_of_nonneg ha)).trans
            (complete_bind_of_ok _ s (checkNonneg_of_nonneg hb))
      _ = complete (writeReg s.params rd (Int.gcd (s.x ra) (s.x rb))) s := by rw [gcdValue_eq_gcd ha hb]
      _ = _ := complete_writeReg_of_lt rd (gcd_lt_of_natAbs_lt (fit ra) (fit rb))
  · rcases lt_or_ge (s.x ra) 0 with negA | ha
    · exact complete_bind_of_error _ s (checkNonneg_neg negA)
    · have negB : s.x rb < 0 := neg.resolve_left ha.not_gt
      exact (complete_bind_of_ok _ s (checkNonneg_of_nonneg ha)).trans
        (complete_bind_of_error _ s (checkNonneg_neg negB))

/-! ## MODINV -/

/-- R0 and R1 go through the pairs of GCD's loop. -/
theorem modInvLoop_fst (fuel : Nat) (r0 r1 t0 t1 : Int) :
    (modInvLoop fuel r0 r1 t0 t1).1 = gcdLoop fuel r0 r1 := by
  induction fuel generalizing r0 r1 t0 t1 with
  | zero => rfl
  | succ fuel ih =>
    rw [modInvLoop, gcdLoop]
    split
    · rfl
    · rw [ih, emod, mul_comm]

/-- R82: the loop keeps a * T = R mod m for both pairs. -/
theorem modInvLoop_modEq {a m : Int} (fuel : Nat) {r0 r1 t0 t1 : Int} (h0 : a * t0 ≡ r0 [ZMOD m])
    (h1 : a * t1 ≡ r1 [ZMOD m]) :
    a * (modInvLoop fuel r0 r1 t0 t1).2 ≡ (modInvLoop fuel r0 r1 t0 t1).1 [ZMOD m] := by
  induction fuel generalizing r0 r1 t0 t1 with
  | zero => exact h0
  | succ fuel ih =>
    rw [modInvLoop]
    split
    · exact h0
    · have next : a * (t0 - fdiv r0 r1 * t1) ≡ r0 - fdiv r0 r1 * r1 [ZMOD m] := by
        rw [mul_sub, mul_left_comm]
        exact h0.sub (h1.mul_left _)
      exact ih h1 next

theorem modInvPair_fst (a : Int) {m : Int} (hm : 0 < m) : (modInvPair a m).1 = Int.gcd a m := by
  rw [modInvPair, modInvLoop_fst, gcdLoop_eq_gcd hm.le (emod_nonneg a hm) (Nat.lt_succ_self _), emod_eq a hm,
    Int.gcd_comm, Int.gcd_emod]

theorem mul_modInvPair_snd_modEq (a : Int) {m : Int} (hm : 0 < m) :
    a * (modInvPair a m).2 ≡ Int.gcd a m [ZMOD m] := by
  have start0 : a * 0 ≡ m [ZMOD m] := by simp [Int.ModEq]
  have start1 : a * 1 ≡ emod a m [ZMOD m] := by simp [Int.ModEq, emod_eq a hm]
  exact modInvPair_fst a hm ▸ modInvLoop_modEq _ start0 start1

theorem inverseValue_of_coprime {a m : Int} (hm : 0 < m) (h : Int.gcd a m = 1) :
    ∃ d, inverseValue a m = .ok d ∧ 0 ≤ d ∧ d < m ∧ a * d % m = 1 % m := by
  have inverse : a * (modInvPair a m).2 % m = 1 % m := by
    simpa [h, Int.ModEq] using mul_modInvPair_snd_modEq a hm
  refine ⟨emod (modInvPair a m).2 m, ?_, emod_nonneg _ hm, emod_lt _ hm, ?_⟩
  · simp [inverseValue, modInvPair_fst a hm, h]
  · rw [emod_eq _ hm, Int.mul_emod, Int.emod_emod_of_dvd _ dvd_rfl, ← Int.mul_emod, inverse]

theorem inverseValue_of_not_coprime {a m : Int} (hm : 0 < m) (h : Int.gcd a m ≠ 1) :
    inverseValue a m = .error .noInverseExists := by
  simp [inverseValue, modInvPair_fst a hm, h]

/-- Settles O47: the loop ends with the gcd and a coefficient of a that is its inverse when the gcd is 1. -/
theorem modInvIsTheInverse : Obligations.ModInvIsTheInverse := by
  unfold Obligations.ModInvIsTheInverse
  intro s rd ra rm fit
  refine ⟨decode_of_encode_eq rfl (by simp [encode, wordR]), fun pos coprime => ?_, fun pos notCoprime => ?_,
    complete_checkMod_of_zero _ s, complete_checkMod_of_neg _ s⟩
  · obtain ⟨d, value, low, high, inverse⟩ := inverseValue_of_coprime pos coprime
    refine ⟨d, low, high, inverse, ?_⟩
    calc exec (.modInv rd ra rm) s
        = complete (writeReg s.params rd d) s :=
          (complete_checkMod_of_pos _ s pos).trans (complete_bind_of_ok _ s value)
      _ = _ := complete_writeReg_of_lt_modulus rd (fit rm) low high
  · exact (complete_checkMod_of_pos _ s pos).trans
      (complete_bind_of_error _ s (inverseValue_of_not_coprime pos notCoprime))

end Sys2Proof.Machine
end

section
/-! Faults (spec 60_exceptions.md R90 to R94): what taking one and acknowledging it change, which tests of a command
report first, and the error kinds that a command's completion leaves. -/

namespace Sys2Proof.Machine

/-! ## Fault entry and acknowledge (R92, R94) -/

theorem hostRead_status_bit1 (s : State) : (hostRead s 0x0001#13).getLsbD 1 = s.err.isSome := by
  rw [hostRead_status]
  cases hb : s.busy <;> cases he : s.err.isSome <;> simp [statusValue, hb, he]

/-- Settles O25: of the endings a completion can have, only fault entry sets ERR. -/
theorem faultEntryChangesNothingElse : Obligations.FaultEntryChangesNothingElse := by
  unfold Obligations.FaultEntryChangesNothingElse
  intro s t i clean run faulted
  refine ⟨?_, (hostRead_status_bit1 t).trans (Option.isSome_iff_ne_none.mpr faulted)⟩
  rcases exec_cases run with ⟨k, rfl⟩ | ⟨rd, v, -, -, rfl⟩ | ⟨f, -, -, rfl⟩ | ⟨ra, -, rfl⟩
  · rfl
  all_goals exact absurd clean faulted

/-- Settles O28: the write to CTRL acknowledges, and with ERR = 0 and BUSY = 0 the write to CMD that follows is an
issue. -/
theorem acknowledgeReturnsToIdle : Obligations.AcknowledgeReturnsToIdle := by
  unfold Obligations.AcknowledgeReturnsToIdle
  intro s v w rest idle _ noReset ack
  obtain ⟨-, acknowledged, -⟩ := hostWritesToCtrl s v (.write 0x0000 w :: rest)
  obtain ⟨issued, -⟩ := hostWritesWhileIdle { s with err := none } w rest idle
  refine ⟨_, acknowledged noReset ack idle, rfl, hostRead_status_bit1 _, ?_, issued rfl⟩
  simp [State.phase, idle]

/-! ## The order of the tests (R91) -/

theorem runCommand_of_not_decoded {s : State} (h : ∀ i, decode s.cmd ≠ .ok i) :
    runCommand s = .next (takeFault .illegalCommand s) := by
  cases decoded : decode s.cmd with
  | ok i => exact absurd decoded (h i)
  | error r => exact runCommand_error decoded

/-- The four commands with a modulus test it before anything else. -/
theorem exec_checks_modulus_first {s : State} {rd ra rb rm : Reg} {i : Instr}
    (hi : i ∈ [Instr.mod rd ra rm, .mulMod rd ra rb rm, .modExp rd ra rb rm, .modInv rd ra rm]) :
    ∃ f, exec i s = complete (checkMod (s.x rm) >>= f) s := by
  simp only [List.mem_cons, List.not_mem_nil, or_false] at hi
  rcases hi with rfl | rfl | rfl | rfl <;> exact ⟨_, rfl⟩

theorem execModExp_of_neg_exponent {s : State} {rb rm : Reg} (rd ra : Reg) (pos : 0 < s.x rm) (neg : s.x rb < 0) :
    exec (.modExp rd ra rb rm) s = .next { s with err := some .invalidOperand, busy := false } :=
  (complete_checkMod_of_pos _ s pos).trans (complete_bind_of_error _ s (checkNonneg_neg neg))

theorem execGcd_of_neg {s : State} {ra rb : Reg} (rd : Reg) (neg : s.x ra < 0 ∨ s.x rb < 0) :
    exec (.gcd rd ra rb) s = .next { s with err := some .invalidOperand, busy := false } := by
  rcases lt_or_ge (s.x ra) 0 with negA | nonnegA
  · exact complete_bind_of_error _ s (checkNonneg_neg negA)
  · exact (complete_bind_of_ok _ s (checkNonneg_of_nonneg nonnegA)).trans
      (complete_bind_of_error _ s (checkNonneg_neg (neg.resolve_left nonnegA.not_gt)))

theorem execModInv_of_not_coprime {s : State} {ra rm : Reg} (rd : Reg) (pos : 0 < s.x rm)
    (notCoprime : Int.gcd (s.x ra) (s.x rm) ≠ 1) :
    exec (.modInv rd ra rm) s = .next { s with err := some .noInverseExists, busy := false } :=
  (complete_checkMod_of_pos _ s pos).trans (complete_bind_of_error _ s (inverseValue_of_not_coprime pos notCoprime))

/-- Settles O27: each clause is the test that its command reaches first. -/
theorem faultPriority : Obligations.FaultPriority := by
  unfold Obligations.FaultPriority
  intro s rd ra rb rm
  refine ⟨runCommand_of_not_decoded, fun i hi => ?modulus, execModExp_of_neg_exponent rd ra, execGcd_of_neg rd,
    fun tooLong => execLoad_of_error rd (bufferValue_of_lt tooLong), execModInv_of_not_coprime rd,
    fun c hc large => ?overflow⟩
  case modulus =>
    obtain ⟨f, run⟩ := exec_checks_modulus_first (s := s) hi
    exact ⟨fun zero => run.trans (complete_checkMod_of_zero f s zero),
      fun neg => run.trans (complete_checkMod_of_neg f s neg)⟩
  case overflow =>
    simp only [List.mem_cons, List.not_mem_nil, or_false] at hc
    rcases hc with rfl | rfl | rfl <;> exact complete_writeReg_of_le rd large

/-! ## The kinds a command can end with (R90) -/

section
variable {s t : State} (fit : s.RegsFit) (clean : s.err = none)

theorem err_eq_of_next_eq {u : State} {o : Host.Outcome State Fault Refusal} (ht : o = .next t) (hu : o = .next u) :
    t.err = u.err := by
  rw [Host.Outcome.next.inj (ht.symm.trans hu)]

/-- What the modulus test adds to the kinds that a command ends with when its modulus is positive. -/
theorem err_of_modulus_tests {m : Int} {o : Host.Outcome State Fault Refusal} {kinds : List (Option ErrKind)}
    (ht : o = .next t)
    (zero : m = 0 → o = .next { s with err := some .divisionByZero, busy := false })
    (neg : m < 0 → o = .next { s with err := some .invalidOperand, busy := false })
    (pos : 0 < m → t.err ∈ none :: some .invalidOperand :: kinds) :
    t.err ∈ none :: some .divisionByZero :: some .invalidOperand :: kinds := by
  rcases lt_trichotomy m 0 with h | h | h
  · simp [err_eq_of_next_eq ht (neg h)]
  · simp [err_eq_of_next_eq ht (zero h)]
  · exact List.cons_subset_cons _ (List.subset_cons_self _ _) (pos h)

include clean

theorem err_complete_writeReg {rd : Reg} {v : Int} (ht : complete (writeReg s.params rd v) s = .next t) :
    t.err ∈ [none, some .overflow] := by
  rcases Nat.lt_or_ge v.natAbs (2 ^ s.params.capacity) with small | large
  · simp [err_eq_of_next_eq ht (complete_writeReg_of_lt rd small), clean]
  · simp [err_eq_of_next_eq ht (complete_writeReg_of_le rd large)]

theorem err_execLdi {rd : Reg} {imm : Nat} (bound : imm < 2 ^ 20) (ht : exec (.ldi rd imm) s = .next t) :
    t.err = none :=
  (err_eq_of_next_eq ht (ldiWritesItsImmediate s rd imm bound).2).trans clean

theorem err_execLoad {rd : Reg} (wf : Memory.wf s.params s.xlimb) (ht : exec (.load rd) s = .next t) :
    t.err ∈ [none, some .invalidOperand] := by
  obtain ⟨-, loads, tooLong⟩ := loadWritesTheBufferValue s rd wf
  rcases Nat.lt_or_ge s.params.maxLimbs s.xlen.toNat with long | short
  · simp [err_eq_of_next_eq ht (tooLong long)]
  · simp [err_eq_of_next_eq ht (loads short), clean]

include fit

theorem err_execMod {rd ra rm : Reg} (ht : exec (.mod rd ra rm) s = .next t) :
    t.err ∈ [none, some .divisionByZero, some .invalidOperand] := by
  obtain ⟨-, value, zero, neg⟩ := modIsTheFloorRemainder s rd ra rm fit
  refine err_of_modulus_tests ht zero neg fun pos => ?_
  obtain ⟨_, _, -, -, -, run⟩ := value pos
  simp [err_eq_of_next_eq ht run, clean]

theorem err_execMulMod {rd ra rb rm : Reg} (ht : exec (.mulMod rd ra rb rm) s = .next t) :
    t.err ∈ [none, some .divisionByZero, some .invalidOperand] := by
  obtain ⟨-, -, zero, neg, -⟩ := mulModIsTheResidue s rd ra rb rm fit
  refine err_of_modulus_tests ht zero neg fun pos => ?_
  simp [err_eq_of_next_eq ht (execMulMod_of_pos rd ra rb fit pos), clean]

theorem err_execModExp {rd ra rb rm : Reg} (ht : exec (.modExp rd ra rb rm) s = .next t) :
    t.err ∈ [none, some .divisionByZero, some .invalidOperand] := by
  obtain ⟨-, power, zero, neg, negExponent⟩ := modExpIsThePower s rd ra rb rm fit
  refine err_of_modulus_tests ht zero neg fun pos => ?_
  rcases lt_or_ge (s.x rb) 0 with below | nonneg
  · simp [err_eq_of_next_eq ht (negExponent pos below)]
  · simp [err_eq_of_next_eq ht (power pos nonneg), clean]

theorem err_execGcd {rd ra rb : Reg} (ht : exec (.gcd rd ra rb) s = .next t) :
    t.err ∈ [none, some .invalidOperand] := by
  obtain ⟨-, value, -⟩ := gcdIsTheGreatestCommonDivisor s rd ra rb fit
  by_cases neg : s.x ra < 0 ∨ s.x rb < 0
  · simp [err_eq_of_next_eq ht (execGcd_of_neg rd neg)]
  · simp [err_eq_of_next_eq ht (value (by omega) (by omega)), clean]

theorem err_execModInv {rd ra rm : Reg} (ht : exec (.modInv rd ra rm) s = .next t) :
    t.err ∈ [none, some .divisionByZero, some .invalidOperand, some .noInverseExists] := by
  obtain ⟨-, inverse, noInverse, zero, neg⟩ := modInvIsTheInverse s rd ra rm fit
  refine err_of_modulus_tests ht zero neg fun pos => ?_
  by_cases coprime : Int.gcd (s.x ra) (s.x rm) = 1
  · obtain ⟨_, -, -, -, run⟩ := inverse pos coprime
    simp [err_eq_of_next_eq ht run, clean]
  · simp [err_eq_of_next_eq ht (noInverse pos coprime)]

end

/-- Settles O26: each command's kinds are those of its tests, and its value is within capacity (but for ADD, SUB and
MUL), so the checked write adds none. -/
theorem faultsPerCommand : Obligations.FaultsPerCommand := by
  unfold Obligations.FaultsPerCommand
  refine ⟨fun s t i inv clean wellFormed ht => ?_, fun s t notDecoded ht => ?_⟩
  · have fit := inv.regsFit
    cases i with
    | ldi rd imm => exact err_execLdi clean (of_decide_eq_true wellFormed) ht
    | load rd => exact err_execLoad clean inv.xlimbWf ht
    | store ra => exact (err_eq_of_next_eq ht (complete_ok (.image (s.x ra)) s)).trans clean
    | add rd ra rb => exact err_complete_writeReg clean ht
    | sub rd ra rb => exact err_complete_writeReg clean ht
    | mul rd ra rb => exact err_complete_writeReg clean ht
    | mod rd ra rm => exact err_execMod fit clean ht
    | cmp ra rb => exact (err_eq_of_next_eq ht (cmpWritesTheCompareFlags s ra rb).2).trans clean
    | isEven ra => exact (err_eq_of_next_eq ht (isEvenWritesTheParity s ra).2.1).trans clean
    | isZero ra => exact (err_eq_of_next_eq ht (isZeroWritesTheZeroFlag s ra).2).trans clean
    | mulMod rd ra rb rm => exact err_execMulMod fit clean ht
    | modExp rd ra rb rm => exact err_execModExp fit clean ht
    | gcd rd ra rb => exact err_execGcd fit clean ht
    | modInv rd ra rm => exact err_execModInv fit clean ht
  · exact err_eq_of_next_eq ht (runCommand_of_not_decoded notDecoded)

end Sys2Proof.Machine
end

section
/-! Reset (spec 10_state.md R28, 70_reset_and_hazards.md R103, R104): both of its sources are the one operation
`resetMae`, whose fields the laws of the state give. -/

namespace Sys2Proof.Machine

@[simp] theorem resetMae_limbAt (s : State) (i : Nat) : (resetMae s).limbAt i = 0 := rfl

@[simp] theorem resetMae_phase (s : State) : (resetMae s).phase = .idle := rfl

theorem step_hardReset (s : State) (rest : List Event) :
    step { s with script := .hardReset :: rest } = .next (resetMae { s with script := rest }) :=
  step_cons (s := { s with script := .hardReset :: rest }) rfl

theorem step_write_ctrl_reset (s : State) {v : Word} (h0 : v.getLsbD 0 = true) (rest : List Event) :
    step { s with script := .write 0x0004 v :: rest } = .next (resetMae { s with script := rest }) :=
  step_write_of_hostWrite_eq ((hostWrite_ctrl v _).trans (ctrlWrite_reset _ h0))

theorem step_reset_source {s : State} {v : Word} {e : Event} (h0 : v.getLsbD 0 = true)
    (he : e = .hardReset ∨ e = .write 0x0004 v) (rest : List Event) :
    step { s with script := e :: rest } = .next (resetMae { s with script := rest }) := by
  rcases he with rfl | rfl
  · exact step_hardReset s rest
  · exact step_write_ctrl_reset s h0 rest

/-- Settles O19: either source steps to `resetMae`, each of whose fields is at its reset value. -/
theorem resetValues : Obligations.ResetValues := by
  unfold Obligations.ResetValues
  intro s v rest e h0 he
  refine ⟨resetMae { s with script := rest }, step_reset_source h0 he rest, ?_⟩
  simp

end Sys2Proof.Machine
end

section
/-! Decoding and encoding are inverse to each other, and the decoder agrees with the opcode map (spec 30_encoding.md
R50 to R56). -/

namespace Sys2Proof

/-- Settles O2: the decoder reads back every field that the encoder wrote. -/
theorem decodeOfEncode : Obligations.DecodeOfEncode := by
  unfold Obligations.DecodeOfEncode
  intro i h
  exact decode_encode_of_wellFormed h

/-! ## A word that decodes is its command's word (R54 to R56) -/

theorem regField_val (w : CmdWord) (lo : Nat) : (regField w lo).val = bitsOf w lo 4 :=
  Nat.mod_eq_of_lt (Nat.mod_lt _ (by decide))

/-- A word with bits 7:0 at 0 is put together from its format R fields. -/
theorem wordR_fields {w : CmdWord} (h : zField w = 0) :
    wordR (opField w) (rdField w) (raField w) (rbField w) (rmField w) = w := by
  have bound := w.isLt
  apply BitVec.eq_of_toNat_eq
  simp only [zField, bitsOf] at h
  simp only [wordR, opField, rdField, raField, rbField, rmField, regField_val, bitsOf, BitVec.toNat_ofNat]
  omega

theorem immField_lt (w : CmdWord) : immField w < immBound := Nat.mod_lt _ (by decide)

theorem wordI_fields (w : CmdWord) : wordI (opField w) (rdField w) (immField w) = w := by
  have bound := w.isLt
  apply BitVec.eq_of_toNat_eq
  simp only [wordI, opField, rdField, immField, regField_val, bitsOf, immBound, BitVec.toNat_ofNat]
  omega

theorem requireUnused_eq_ok_iff {zero : Bool} {i j : Instr} : requireUnused zero i = .ok j ↔ zero = true ∧ i = j := by
  cases zero <;> simp [requireUnused]

/-- The word whose format R fields are those of a word that passes the decoder's tests. -/
theorem encode_eq_of_wordR_fields {w : CmdWord} {i : Instr} {op : Nat} {rd ra rb rm : Reg} (hop : opField w = op)
    (hz : zField w = 0) (hrd : rdField w = rd) (hra : raField w = ra) (hrb : rbField w = rb) (hrm : rmField w = rm)
    (hi : encode i = wordR op rd ra rb rm) : encode i = w := by
  rw [hi, ← hop, ← hrd, ← hra, ← hrb, ← hrm, wordR_fields hz]

/-- Settles O3: the decoder takes the operands from the word's fields and tests that the other fields are 0, so the
encoder puts the same word together again. -/
theorem encodeOfDecode : Obligations.EncodeOfDecode := by
  unfold Obligations.EncodeOfDecode
  intro w i h
  unfold decode at h
  split at h
  case h_1 hop =>
    obtain rfl := Except.ok.inj h
    have word : encode (.ldi (rdField w) (immField w)) = w := by rw [encode, ← hop, wordI_fields]
    exact ⟨word, decide_eq_true (immField_lt w)⟩
  case h_15 => cases h
  all_goals
    next hop =>
      simp only [requireUnused_eq_ok_iff, Bool.and_eq_true, beq_iff_eq] at h
      obtain ⟨unused, rfl⟩ := h
      exact ⟨encode_eq_of_wordR_fields hop (by simp [unused]) (by simp [unused]) (by simp [unused]) (by simp [unused])
        (by simp [unused]) rfl, rfl⟩

/-! ## The decoder and the opcode map (R53, R56) -/

theorem opField_encode (i : Instr) : opField (encode i) = opcodeOf i := by
  cases i with
  | ldi rd imm => exact Laws.OpcodeField.ldi rd imm
  | _ => exact opField_wordR _ _ _ _ (by decide)

theorem exists_row (i : Instr) : ∃ row ∈ opcodeTable, row.mnemonic = mnemonicOf i ∧ row.op = opcodeOf i := by
  cases i <;> simp [opcodeTable, mnemonicOf, opcodeOf]

/-- Each mnemonic stands in one row, so it fixes the opcode. -/
theorem opcodeOf_eq_of_mnemonicOf_eq {i j : Instr} (h : mnemonicOf i = mnemonicOf j) : opcodeOf i = opcodeOf j := by
  obtain ⟨r, hr, hri, opi⟩ := exists_row i
  obtain ⟨r', hr', hrj, opj⟩ := exists_row j
  have unique : ∀ r ∈ opcodeTable, ∀ r' ∈ opcodeTable, r.mnemonic = r'.mnemonic → r.op = r'.op := by decide
  rw [← opi, ← opj, unique r hr r' hr' (hri.trans (h.trans hrj.symm))]

theorem and_opMask_eq_iff (w : CmdWord) {op : Nat} (hop : op < 2 ^ 8) :
    w &&& 0xFF000000 = BitVec.ofNat 32 (op * 2 ^ 24) ↔ opField w = op := by
  refine ⟨fun h => ?_, and_opMask⟩
  have fields := congrArg BitVec.toNat h
  rw [toNat_and_fieldMask w (lo := 24) (width := 8) (by decide), BitVec.toNat_ofNat] at fields
  rw [opField]
  omega

/-- Two masks together, when the expected bits lie under the first and outside the second. -/
theorem and_or_eq_iff (w : CmdWord) {m n p : CmdWord} (inside : p &&& m = p) (outside : p &&& n = 0) :
    w &&& (m ||| n) = p ↔ w &&& m = p ∧ w &&& n = 0 := by
  have absorb (a b : CmdWord) : (a ||| b) &&& a = a := by ext i; simpa [Bool.and_comm] using Or.inl
  constructor
  · rintro rfl
    rw [BitVec.and_assoc, absorb] at inside
    rw [BitVec.and_assoc, BitVec.or_comm, absorb] at outside
    exact ⟨inside, outside⟩
  · rintro ⟨rfl, unused⟩
    rw [BitVec.and_or_distrib_left, unused]
    exact BitVec.or_zero

theorem testsMask_none (w : CmdWord) : TestsMask w true 0 := by simp [TestsMask]

theorem opField_eq_div (w : CmdWord) : opField w = w.toNat / 2 ^ 24 :=
  Nat.mod_eq_of_lt (by have := w.isLt; omega)

/-- One row: the decoder answers its command exactly for the words with the row's opcode that pass the tests, and these
are tests of the row's masked bits. -/
theorem matches_iff_decodes {w unused : CmdWord} {row : OpcodeRow} {zero : Bool} (i : Instr)
    (tests : TestsMask w zero unused)
    (columns : row.pattern = BitVec.ofNat 32 (row.op * 2 ^ 24) ∧ row.op < 2 ^ 8 ∧ row.mask = 0xFF000000 ||| unused ∧
      row.pattern &&& 0xFF000000 = row.pattern ∧ row.pattern &&& unused = 0)
    (names : mnemonicOf i = row.mnemonic ∧ opcodeOf i = row.op)
    (decodes : opField w = row.op → decode w = requireUnused zero i) :
    (w &&& row.mask = row.pattern ↔ ∃ i, decode w = .ok i ∧ mnemonicOf i = row.mnemonic) ∧
    (w &&& row.mask = row.pattern → w.toNat / 2 ^ 24 = row.op) := by
  obtain ⟨pattern, op_lt, mask, inside, outside⟩ := columns
  obtain ⟨mnemonic, opcode⟩ := names
  have fields : w &&& row.mask = row.pattern ↔ opField w = row.op ∧ zero = true := by
    rw [mask, and_or_eq_iff w inside outside, pattern, and_opMask_eq_iff w op_lt]
    exact and_congr_right fun _ => Iff.symm tests
  refine ⟨fields.trans ⟨fun ⟨hop, unusedZero⟩ => ?_, fun ⟨j, decoded, named⟩ => ?_⟩, fun matched => ?_⟩
  · exact ⟨i, (decodes hop).trans (requireUnused_eq_ok_iff.mpr ⟨unusedZero, rfl⟩), mnemonic⟩
  · have word := (encodeOfDecode w j decoded).1
    have hop : opField w = row.op := by
      rw [← word, opField_encode, opcodeOf_eq_of_mnemonicOf_eq (named.trans mnemonic.symm), opcode]
    exact ⟨hop, (requireUnused_eq_ok_iff.mp ((decodes hop).symm.trans decoded)).1⟩
  · exact (opField_eq_div w).symm.trans (fields.mp matched).1

/-- Settles O4: a row's mask covers the opcode and the fields that its command does not use. -/
theorem decodeAgreesWithTheOpcodeTable : Obligations.DecodeAgreesWithTheOpcodeTable := by
  unfold Obligations.DecodeAgreesWithTheOpcodeTable
  intro row hrow w
  have rd := testsMask_rd w
  have ra := testsMask_ra w
  have rb := testsMask_rb w
  have rm := testsMask_rm w
  have z := testsMask_z w
  simp only [opcodeTable, List.mem_cons, List.not_mem_nil, or_false] at hrow
  rcases hrow with rfl | rfl | rfl | rfl | rfl | rfl | rfl | rfl | rfl | rfl | rfl | rfl | rfl | rfl
  · exact matches_iff_decodes (.ldi (rdField w) (immField w)) (testsMask_none w) (by decide) ⟨rfl, rfl⟩
      fun hop => by simp only [decode, hop]; rfl
  · exact matches_iff_decodes (.load (rdField w)) (((ra.and rb).and rm).and z) (by decide) ⟨rfl, rfl⟩
      fun hop => by simp only [decode, hop]
  · exact matches_iff_decodes (.store (raField w)) (((rd.and rb).and rm).and z) (by decide) ⟨rfl, rfl⟩
      fun hop => by simp only [decode, hop]
  · exact matches_iff_decodes (.add (rdField w) (raField w) (rbField w)) (rm.and z) (by decide) ⟨rfl, rfl⟩
      fun hop => by simp only [decode, hop]
  · exact matches_iff_decodes (.sub (rdField w) (raField w) (rbField w)) (rm.and z) (by decide) ⟨rfl, rfl⟩
      fun hop => by simp only [decode, hop]
  · exact matches_iff_decodes (.mul (rdField w) (raField w) (rbField w)) (rm.and z) (by decide) ⟨rfl, rfl⟩
      fun hop => by simp only [decode, hop]
  · exact matches_iff_decodes (.mod (rdField w) (raField w) (rmField w)) (rb.and z) (by decide) ⟨rfl, rfl⟩
      fun hop => by simp only [decode, hop]
  · exact matches_iff_decodes (.cmp (raField w) (rbField w)) ((rd.and rm).and z) (by decide) ⟨rfl, rfl⟩
      fun hop => by simp only [decode, hop]
  · exact matches_iff_decodes (.isEven (raField w)) (((rd.and rb).and rm).and z) (by decide) ⟨rfl, rfl⟩
      fun hop => by simp only [decode, hop]
  · exact matches_iff_decodes (.isZero (raField w)) (((rd.and rb).and rm).and z) (by decide) ⟨rfl, rfl⟩
      fun hop => by simp only [decode, hop]
  · exact matches_iff_decodes (.mulMod (rdField w) (raField w) (rbField w) (rmField w)) z (by decide) ⟨rfl, rfl⟩
      fun hop => by simp only [decode, hop]
  · exact matches_iff_decodes (.modExp (rdField w) (raField w) (rbField w) (rmField w)) z (by decide) ⟨rfl, rfl⟩
      fun hop => by simp only [decode, hop]
  · exact matches_iff_decodes (.gcd (rdField w) (raField w) (rbField w)) (rm.and z) (by decide) ⟨rfl, rfl⟩
      fun hop => by simp only [decode, hop]
  · exact matches_iff_decodes (.modInv (rdField w) (raField w) (rmField w)) (rb.and z) (by decide) ⟨rfl, rfl⟩
      fun hop => by simp only [decode, hop]

/-- Settles O5: a word that matches two rows has both their opcodes, and no two rows share one. -/
theorem opcodeRowsAreExclusive : Obligations.OpcodeRowsAreExclusive := by
  unfold Obligations.OpcodeRowsAreExclusive
  intro r₁ h₁ r₂ h₂ w match₁ match₂
  have unique : ∀ r ∈ opcodeTable, ∀ r' ∈ opcodeTable, r.op = r'.op → r = r' := by decide
  have op₁ := (decodeAgreesWithTheOpcodeTable r₁ h₁ w).2 match₁
  have op₂ := (decodeAgreesWithTheOpcodeTable r₂ h₂ w).2 match₂
  exact unique r₁ h₁ r₂ h₂ (op₁.symm.trans op₂)

/-- Settles O1: each word is a literal, which the decoder evaluates. -/
theorem workedWordsDecode : Obligations.WorkedWordsDecode := by
  unfold Obligations.WorkedWordsDecode
  decide

end Sys2Proof
end

section
/-! What one step can do (spec 20_memory.md R40 to R44), said once as an inversion of `step`, and the statements about
the whole machine that follow from it. -/

namespace Sys2Proof.Machine

/-! ## The invariants (spec 10_state.md R28, R30) -/

/-- Settles O22: the engine's completion, the host's accesses and the resets each keep the invariants. -/
theorem stepKeepsTheInvariants : Obligations.StepKeepsTheInvariants := by
  unfold Obligations.StepKeepsTheInvariants
  intro s t inv ht
  exact step_inv inv ht

/-- Settles O21: the zeros of the reset state meet each invariant. -/
theorem resetMeetsTheInvariants : Obligations.ResetMeetsTheInvariants := by
  unfold Obligations.ResetMeetsTheInvariants
  exact resetOf_inv

/-! ## The engine's turn -/

theorem engineTurn_of_busy {s : State} (h : s.busy = true) : engineTurn s = runCommand s := if_pos h

theorem engineTurn_of_idle {s : State} (h : s.busy = false) : engineTurn s = .next s := by simp [engineTurn, h]

theorem runCommand_next (s : State) : ∃ t, runCommand s = .next t := by
  cases hd : decode s.cmd with
  | ok i => exact runCommand_ok hd ▸ exec_next i s
  | error r => exact ⟨_, runCommand_error hd⟩

theorem engineTurn_next (s : State) : ∃ t, engineTurn s = .next t := by
  cases hb : s.busy with
  | true => exact engineTurn_of_busy hb ▸ runCommand_next s
  | false => exact ⟨s, engineTurn_of_idle hb⟩

theorem perform_next (e : Event) (s : State) : ∃ t, perform e s = .next t := by
  cases e with
  | engine => exact engineTurn_next s
  | _ => exact ⟨_, rfl⟩

/-- Settles O8: the engine's turn ends in a completion or in the state it found, a host access in a next state. -/
theorem stepNeverStops : Obligations.StepNeverStops := by
  unfold Obligations.StepNeverStops
  intro s
  cases hs : s.script with
  | nil =>
    obtain ⟨t, ht⟩ := engineTurn_next s
    exact ⟨t, (step_nil hs).trans ht⟩
  | cons e rest =>
    obtain ⟨t, ht⟩ := perform_next e { s with script := rest }
    exact ⟨t, (step_cons hs).trans ht⟩

/-- What a completion does whatever the command: BUSY falls, the host's side, CMD and the parameters stay, and a
register changes only if it is the destination of the command. -/
structure Completion (s t : State) : Prop where
  busy : t.busy = false
  params : t.params = s.params
  script : t.script = s.script
  replies : t.replies = s.replies
  regs : ∀ r, t.x r ≠ s.x r → ∃ i, decode s.cmd = .ok i ∧ destOf i = some r

theorem takeFault_completion (k : ErrKind) (s : State) : Completion s (takeFault k s) :=
  ⟨rfl, rfl, rfl, rfl, fun _ changed => absurd rfl changed⟩

theorem runCommand_completion {s t : State} (h : runCommand s = .next t) : Completion s t := by
  cases hd : decode s.cmd with
  | error r =>
    obtain rfl := Host.Outcome.next.inj ((runCommand_error hd).symm.trans h)
    exact takeFault_completion .illegalCommand s
  | ok i =>
    have run : exec i s = .next t := (runCommand_ok hd).symm.trans h
    rcases exec_cases run with ⟨k, rfl⟩ | ⟨rd, v, hrd, -, rfl⟩ | ⟨f, -, -, rfl⟩ | ⟨ra, -, rfl⟩
    · exact takeFault_completion k s
    · refine ⟨rfl, rfl, rfl, rfl, fun r changed => ⟨i, hd, ?_⟩⟩
      obtain rfl : r = rd := by_contra fun other => changed (x_setX_of_ne s rd v other)
      exact hrd
    · exact ⟨rfl, rfl, rfl, rfl, fun _ changed => absurd rfl changed⟩
    · exact ⟨rfl, rfl, rfl, rfl, fun _ changed => absurd rfl changed⟩

/-! ## The inversion of a step -/

/-- The script gives the engine its turn. -/
abbrev State.EngineNext (s : State) : Prop := s.script = [] ∨ ∃ rest, s.script = .engine :: rest

/-- The script's first event is a source of reset: the hardware event, or a write of CTRL.SRST
(spec 70_reset_and_hazards.md R103). -/
abbrev State.ResetNext (s : State) : Prop :=
  ∃ rest, s.script = .hardReset :: rest ∨ ∃ v, s.script = .write 0x0004 v :: rest ∧ v.getLsbD 0 = true

/-- The state once the script's first event is taken off. -/
abbrev State.advance (s : State) : State := { s with script := s.script.tail }

/-- The seven things that a step from `s` to `t` can be. -/
inductive StepCase (s t : State) : Prop where
  /-- The engine has its turn and nothing to do. -/
  | idleTurn (turn : s.EngineNext) (idle : s.busy = false) (ht : t = s.advance)
  /-- The engine completes the command in CMD. -/
  | completion (turn : s.EngineNext) (busy : s.busy = true)
      (run : runCommand s.advance = .next t)
  /-- The host reads. -/
  | read (a : Addr) (rest : List Event) (hs : s.script = .read a :: rest)
      (ht : t = { s with script := rest, replies := hostRead s a :: s.replies })
  /-- The MAE is reset. -/
  | reset (source : s.ResetNext) (ht : t = resetMae s.advance)
  /-- The host acknowledges a fault by CTRL.CLRERR. -/
  | acknowledge (v : Word) (rest : List Event) (hs : s.script = .write 0x0004 v :: rest) (clear : v.getLsbD 1 = true)
      (idle : s.busy = false) (ht : t = acknowledge { s with script := rest })
  /-- The host issues a command. -/
  | issue (v : Word) (rest : List Event) (hs : s.script = .write 0x0000 v :: rest) (idle : s.busy = false)
      (clean : s.err = none) (ht : t = { s with script := rest, cmd := v.setWidth 32, busy := true })
  /-- Any other write of the host: at most the transfer buffer changes. -/
  | bufferWrite (a : Addr) (v : Word) (rest : List Event) (sign : Bool) (len : BitVec 16) (limbs : Memory)
      (hs : s.script = .write a v :: rest)
      (ht : t = { s with script := rest, xsign := sign, xlen := len, xlimb := limbs })

/-- A write while BUSY = 0 to an address other than CTRL issues a command, or changes at most the transfer buffer. -/
theorem idleWrite_cases (a : Addr) (v : Word) (s : State) :
    (a = 0x0000 ∧ s.err = none ∧ idleWrite a v s = { s with cmd := v.setWidth 32, busy := true }) ∨
    ∃ sign len limbs, idleWrite a v s = { s with xsign := sign, xlen := len, xlimb := limbs } := by
  by_cases ha : a = 0x0000#13
  · subst ha
    rw [idleWrite_cmd]
    by_cases he : s.err = none
    · exact .inl ⟨rfl, he, issue_of_err_eq_none v he⟩
    · exact .inr ⟨_, _, _, issue_of_err_ne_none v he⟩
  · have notCmd : hostReg s.params a ≠ .cmd := by rwa [ne_eq, hostReg_eq_cmd_iff]
    right
    unfold idleWrite
    split
    case h_1 h => exact absurd h notCmd
    all_goals exact ⟨_, _, _, rfl⟩

theorem stepCase_of_hostWrite {s : State} {a : Addr} {v : Word} {rest : List Event}
    (hs : s.script = .write a v :: rest) :
    StepCase s (hostWrite a v { s with script := rest }) := by
  by_cases ha : a = 0x0004#13
  · subst ha
    rw [hostWrite_ctrl]
    rcases ctrlWrite_cases v { s with script := rest } with ⟨h0, e⟩ | ⟨-, h1, idle, e⟩ | ⟨-, -, e⟩
    · exact .reset ⟨rest, .inr ⟨v, hs, h0⟩⟩ (by rw [e, State.advance, hs]; rfl)
    · exact .acknowledge v rest hs h1 idle e
    · exact .bufferWrite _ v rest _ _ _ hs e
  · rcases Bool.eq_false_or_eq_true s.busy with hb | hb
    · exact .bufferWrite a v rest _ _ _ hs (hostWrite_busy (s := { s with script := rest }) v ha hb)
    · have e := hostWrite_idle (s := { s with script := rest }) v ha hb
      rcases idleWrite_cases a v { s with script := rest } with ⟨rfl, clean, issued⟩ | ⟨sign, len, limbs, written⟩
      · exact .issue v rest hs hb clean (e.trans issued)
      · exact .bufferWrite a v rest sign len limbs hs (e.trans written)

theorem stepCase_of_engineTurn {s t : State} (turn : s.EngineNext)
    (h : engineTurn s.advance = .next t) : StepCase s t := by
  rcases Bool.eq_false_or_eq_true s.busy with hb | hb
  · exact .completion turn hb ((engineTurn_of_busy (s := s.advance) hb).symm.trans h)
  · exact .idleTurn turn hb (Host.Outcome.next.inj ((engineTurn_of_idle (s := s.advance) hb).symm.trans h)).symm

/-- Everything a step can do. -/
theorem step_cases {s t : State} (h : step s = .next t) : StepCase s t := by
  cases hs : s.script with
  | nil =>
    have same : s.advance = s := by rw [State.advance, hs, List.tail_nil, ← hs]
    exact stepCase_of_engineTurn (.inl hs) (same.symm ▸ step_nil hs ▸ h)
  | cons e rest =>
    rw [step_cons hs] at h
    cases e with
    | read a => exact .read a rest hs (Host.Outcome.next.inj h).symm
    | write a v => exact Host.Outcome.next.inj h ▸ stepCase_of_hostWrite hs
    | hardReset => exact .reset ⟨rest, .inl hs⟩ (by rw [State.advance, hs]; exact (Host.Outcome.next.inj h).symm)
    | engine => exact stepCase_of_engineTurn (.inr ⟨rest, hs⟩) (by rw [State.advance, hs]; exact h)

/-! ## What follows from it -/

theorem head?_ne_read_of_engineNext {s : State} (h : s.EngineNext) (a : Addr) : s.script.head? ≠ some (.read a) := by
  rcases h with h | ⟨rest, h⟩ <;> simp [h]

theorem head?_ne_read_of_resetNext {s : State} (h : s.ResetNext) (a : Addr) : s.script.head? ≠ some (.read a) := by
  obtain ⟨rest, h | ⟨v, h, -⟩⟩ := h <;> simp [h]

/-- Settles O18: of the seven things a step can be, only a read adds to the replies. -/
theorem stepKeepsParametersAndScript : Obligations.StepKeepsParametersAndScript := by
  unfold Obligations.StepKeepsParametersAndScript
  intro s t ht
  cases step_cases ht with
  | idleTurn turn idle ht =>
    subst ht
    exact ⟨rfl, rfl, fun a read => absurd read (head?_ne_read_of_engineNext turn a), fun _ => rfl⟩
  | completion turn busy run =>
    have ends := runCommand_completion run
    exact ⟨ends.params, ends.script, fun a read => absurd read (head?_ne_read_of_engineNext turn a),
      fun _ => ends.replies⟩
  | read a rest hs ht =>
    subst ht
    rw [hs]
    simp
  | reset source ht =>
    subst ht
    exact ⟨rfl, rfl, fun a read => absurd read (head?_ne_read_of_resetNext source a), fun _ => rfl⟩
  | acknowledge v rest hs clear idle ht =>
    subst ht
    rw [hs]
    simp
  | issue v rest hs idle clean ht =>
    subst ht
    rw [hs]
    simp
  | bufferWrite a v rest sign len limbs hs ht =>
    subst ht
    rw [hs]
    simp

/-! ## Phases (spec 10_state.md R27) -/

theorem phase_of_busy {s : State} (h : s.busy = true) : s.phase = .busy := by simp [State.phase, h]

theorem phase_of_idle {s : State} (h : s.busy = false) (he : s.err = none) : s.phase = .idle := by
  simp [State.phase, h, he]

theorem phase_of_fault {s : State} (h : s.busy = false) (he : s.err ≠ none) : s.phase = .fault := by
  simp [State.phase, h, Option.isSome_iff_ne_none.mpr he]

theorem phase_eq_busy_iff {s : State} : s.phase = .busy ↔ s.busy = true := by
  unfold State.phase
  split
  case isTrue hb => simp [hb]
  case isFalse hb => split <;> simp [hb]

theorem phase_kept {s t : State} (same : t.phase = s.phase) (P Q R : Prop) :
    (s.phase = .idle → t.phase = .idle ∨ P) ∧ (s.phase = .busy → t.phase = .busy ∨ Q) ∧
    (s.phase = .fault → t.phase = .fault ∨ R) := by
  rw [same]
  exact ⟨.inl, .inl, .inl⟩

/-- Settles O24: each of the seven things a step can be keeps the phase or is one of the transitions listed. -/
theorem phaseTransitions : Obligations.PhaseTransitions := by
  unfold Obligations.PhaseTransitions
  intro s t _ ht
  cases step_cases ht with
  | idleTurn turn idle ht => exact phase_kept (ht ▸ rfl) _ _ _
  | completion turn busy run =>
    have now := phase_of_busy busy
    have idle := (runCommand_completion run).busy
    refine ⟨fun h => by simp [now] at h, fun _ => ?_, fun h => by simp [now] at h⟩
    by_cases he : t.err = none
    · exact .inr (.inl ⟨phase_of_idle idle he, he, turn⟩)
    · exact .inr (.inr (.inr ⟨phase_of_fault idle he, he, turn⟩))
  | read a rest hs ht => exact phase_kept (ht ▸ rfl) _ _ _
  | reset source ht =>
    have after : t.phase = .idle := ht ▸ resetMae_phase _
    obtain ⟨rest, event⟩ := source
    refine ⟨fun _ => .inl after, fun _ => .inr (.inr (.inl ⟨after, rest, event⟩)), fun _ => .inr ⟨after, rest, ?_⟩⟩
    exact event.imp_right fun ⟨v, hs, h0⟩ => ⟨v, hs, .inl h0⟩
  | acknowledge v rest hs clear idle ht =>
    have after : t.phase = .idle := ht ▸ phase_of_idle idle rfl
    refine ⟨fun _ => .inl after, fun h => ?_, fun _ => .inr ⟨after, rest, .inr ⟨v, hs, .inr clear⟩⟩⟩
    simp [phase_eq_busy_iff, idle] at h
  | issue v rest hs idle clean ht =>
    have now := phase_of_idle idle clean
    have after : t.phase = .busy := ht ▸ phase_of_busy rfl
    exact ⟨fun _ => .inr ⟨after, v, rest, hs⟩, fun h => by simp [now] at h, fun h => by simp [now] at h⟩
  | bufferWrite a v rest sign len limbs hs ht => exact phase_kept (ht ▸ rfl) _ _ _

/-! ## What changes a BigInt register, and what a pending fault stops -/

/-- The rd field of a command's word is the destination of the command. -/
theorem rdField_encode {i : Instr} {rd : Reg} (h : destOf i = some rd) : rdField (encode i) = rd := by
  cases i with
  | ldi r imm => exact Option.some.inj h ▸ rdField_wordI r imm (by decide)
  | store | cmp | isEven | isZero => cases h
  | _ => exact Option.some.inj h ▸ rdField_wordR _ _ _ _ (by decide)

/-- Settles O56: only a completion and a reset touch a register, and a completion only the destination of the command
that CMD decodes to, which stands in the word's rd field. -/
theorem onlyCommandsWriteRegisters : Obligations.OnlyCommandsWriteRegisters := by
  unfold Obligations.OnlyCommandsWriteRegisters
  refine ⟨fun s t r ht changed => ?_, fun _ _ _ => rfl⟩
  cases step_cases ht with
  | completion turn busy run =>
    have ends := runCommand_completion run
    obtain ⟨i, decoded, dest⟩ := ends.regs r changed
    have word : encode i = s.cmd := (encodeOfDecode s.cmd i decoded).1
    refine .inl ⟨busy, ends.busy, word ▸ (rdField_encode dest).symm, ⟨i, decoded, ?_, ?_, ?_, ?_⟩, turn⟩ <;>
      (intros; rintro rfl; cases dest)
  | reset source ht => exact .inr ⟨fun q => ht ▸ resetMae_x _ q, source⟩
  | idleTurn turn idle ht => exact absurd (ht ▸ rfl) changed
  | read a rest hs ht => exact absurd (ht ▸ rfl) changed
  | acknowledge v rest hs clear idle ht => exact absurd (ht ▸ rfl) changed
  | issue v rest hs idle clean ht => exact absurd (ht ▸ rfl) changed
  | bufferWrite a v rest sign len limbs hs ht => exact absurd (ht ▸ rfl) changed

/-- Settles O58: with ERR != 0 no command is issued, with BUSY = 0 none completes, and the other steps but reset and
acknowledge leave the MAE's state outside the transfer buffer alone. -/
theorem faultedMachineRunsNoCommand : Obligations.FaultedMachineRunsNoCommand := by
  unfold Obligations.FaultedMachineRunsNoCommand
  intro s t faulted idle noReset ht
  cases step_cases ht with
  | completion turn busy run => simp [idle] at busy
  | reset source ht =>
    obtain ⟨rest, hs | ⟨v, hs, -⟩⟩ := source
    · exact absurd rfl (noReset _ rest hs).1
    · exact absurd rfl ((noReset _ rest hs).2 v)
  | acknowledge v rest hs clear idle ht => exact absurd rfl ((noReset _ rest hs).2 v)
  | issue v rest hs idle clean ht => exact absurd clean faulted
  | idleTurn turn _ ht => subst ht; exact ⟨rfl, rfl, idle, rfl, fun _ => rfl⟩
  | read a rest hs ht => subst ht; exact ⟨rfl, rfl, idle, rfl, fun _ => rfl⟩
  | bufferWrite a v rest sign len limbs hs ht => subst ht; exact ⟨rfl, rfl, idle, rfl, fun _ => rfl⟩

end Sys2Proof.Machine
end

section
/-! Runs of several steps (spec 20_memory.md R41 to R48, 70_reset_and_hazards.md R105, R113). -/

namespace Sys2Proof.Machine

theorem coreRun_succ {M : Host.Core} {s t : M.State} (h : M.step s = .next t) (n : Nat) :
    M.run (n + 1) s = M.run n t := by
  rw [Host.Core.run, h]

theorem run_succ_of_step {s t : State} (h : step s = .next t) (n : Nat) :
    Sys2Proof.core.run (n + 1) s = Sys2Proof.core.run n t :=
  coreRun_succ (M := Sys2Proof.core) h n

theorem step_engine (s : State) (rest : List Event) :
    step { s with script := .engine :: rest } = engineTurn { s with script := rest } :=
  step_cons (s := { s with script := .engine :: rest }) rfl

theorem step_emptyScript (s : State) : step { s with script := [] } = engineTurn { s with script := [] } :=
  step_nil (s := { s with script := [] }) rfl

/-- Settles O7: either way the engine has its turn, which with BUSY = 1 is the completion of the decoded command. -/
theorem stepRunsTheDecodedCommand : Obligations.StepRunsTheDecodedCommand := by
  unfold Obligations.StepRunsTheDecodedCommand
  intro s i rest busy decoded
  have turn (es : List Event) : engineTurn { s with script := es } = exec i { s with script := es } :=
    (engineTurn_of_busy (s := { s with script := es }) busy).trans
      (runCommand_ok (s := { s with script := es }) decoded)
  exact ⟨(step_engine s rest).trans (turn rest), (step_emptyScript s).trans (turn [])⟩

/-- Settles O14: a read changes the replies only, which no read sees. -/
theorem hostReadsHaveNoSideEffect : Obligations.HostReadsHaveNoSideEffect := by
  unfold Obligations.HostReadsHaveNoSideEffect
  intro s a rest
  exact ⟨run_succ_of_step (step_read s a rest) 0,
    (run_succ_of_step (step_read s a (.read a :: rest)) 1).trans
      (run_succ_of_step (step_read { s with replies := hostRead s a :: s.replies } a rest) 0)⟩

/-- Settles O20: after the reset BUSY = 0, so the engine's turn does nothing. -/
theorem resetAbortsTheCommand : Obligations.ResetAbortsTheCommand := by
  unfold Obligations.ResetAbortsTheCommand
  intro s v rest e _ h0 source
  have aborted := step_reset_source (s := s) h0 source (.engine :: rest)
  have turn : step (resetMae { s with script := .engine :: rest }) = .next (resetMae { s with script := rest }) :=
    (step_engine (resetMae s) rest).trans (engineTurn_of_idle rfl)
  exact (run_succ_of_step aborted 1).trans (run_succ_of_step turn 0)

/-! ## Host traffic while BUSY = 1 -/

/-- While BUSY = 1 a write is dropped, unless it writes CTRL.SRST. -/
theorem hostWrite_of_busy_of_not_reset {a : Addr} {v : Word} {s : State} (busy : s.busy = true)
    (noReset : a = 0x0004 → v.getLsbD 0 = false) : hostWrite a v s = s := by
  by_cases ha : a = 0x0004#13
  · subst ha
    exact (hostWrite_ctrl v s).trans (ctrlWrite_nothing (noReset rfl) (.inr busy))
  · exact hostWrite_busy v ha busy

/-- The event is a host access that does not reset the MAE. -/
def Event.IsTraffic (e : Event) : Prop :=
  (∃ a, e = .read a) ∨ ∃ a v, e = .write a v ∧ (a = 0x0004 → v.getLsbD 0 = false)

/-- While BUSY = 1 such an event changes nothing but the host's side. -/
theorem step_of_isTraffic {s : State} {e : Event} (rest : List Event) (busy : s.busy = true) (he : e.IsTraffic) :
    ∃ words, step { s with script := e :: rest } = .next { s with script := rest, replies := words ++ s.replies } := by
  rcases he with ⟨a, rfl⟩ | ⟨a, v, rfl, noReset⟩
  · exact ⟨[hostRead s a], step_read s a rest⟩
  · have dropped := hostWrite_of_busy_of_not_reset (s := { s with script := rest }) busy noReset
    exact ⟨[], step_write_of_hostWrite_eq dropped⟩

theorem run_of_isTraffic {s : State} {traffic : List Event} (rest : List Event) (busy : s.busy = true)
    (h : ∀ e ∈ traffic, e.IsTraffic) :
    ∃ words, Sys2Proof.core.run traffic.length { s with script := traffic ++ rest } =
      .next { s with script := rest, replies := words ++ s.replies } := by
  induction traffic generalizing s with
  | nil => exact ⟨[], rfl⟩
  | cons e traffic ih =>
    obtain ⟨first, hfirst⟩ := step_of_isTraffic (traffic ++ rest) busy (h e List.mem_cons_self)
    obtain ⟨words, hwords⟩ := ih (s := { s with replies := first ++ s.replies }) busy
      fun e he => h e (List.mem_cons_of_mem _ he)
    refine ⟨words ++ first, (run_succ_of_step hfirst _).trans ?_⟩
    rw [List.append_assoc]
    exact hwords

/-- Settles O16: traffic that leaves CTRL alone resets nothing. -/
theorem hostTrafficWhileBusyIsInvisible : Obligations.HostTrafficWhileBusyIsInvisible := by
  unfold Obligations.HostTrafficWhileBusyIsInvisible
  intro s traffic rest busy h
  refine run_of_isTraffic rest busy fun e he => ?_
  rcases h e he with read | ⟨a, v, rfl, notCtrl⟩
  · exact .inl read
  · exact .inr ⟨a, v, rfl, fun ha => absurd ha notCtrl⟩

/-! ## Every issued command completes (spec 70_reset_and_hazards.md R113) -/

/-- From `s` the completion of the command in CMD comes, on a state that differs in the host's side only. -/
def Completes (s : State) : Prop :=
  ∃ (n : Nat) (t : State) (rest : List Event) (replies : List Word), Sys2Proof.core.run n s = .next t ∧
    runCommand { s with script := rest, replies := replies } = .next t ∧ t.busy = false

theorem completes_of_engineTurn {s : State} {rest : List Event} (busy : s.busy = true)
    (turn : step s = engineTurn { s with script := rest }) : Completes s := by
  obtain ⟨t, run⟩ := runCommand_next { s with script := rest }
  have ends : step s = .next t := turn.trans ((engineTurn_of_busy (s := { s with script := rest }) busy).trans run)
  exact ⟨1, t, rest, s.replies, run_succ_of_step ends 0, run, (runCommand_completion run).busy⟩

theorem completes_of_step {s : State} {rest : List Event} {replies : List Word}
    (h : step s = .next { s with script := rest, replies := replies })
    (later : Completes { s with script := rest, replies := replies }) : Completes s := by
  obtain ⟨n, t, rest', replies', run, completion, idle⟩ := later
  exact ⟨n + 1, t, rest', replies', (run_succ_of_step h n).trans run, completion, idle⟩

theorem isTraffic_of_not_reset {e : Event} (he : e ≠ .engine) (hr : e ≠ .hardReset)
    (hw : ∀ v, e = .write 0x0004 v → v.getLsbD 0 = false) : e.IsTraffic := by
  cases e with
  | read a => exact .inl ⟨a, rfl⟩
  | write a v => exact .inr ⟨a, v, rfl, fun ha => hw v (ha ▸ rfl)⟩
  | hardReset => exact absurd rfl hr
  | engine => exact absurd rfl he

theorem completes_of_no_reset {script : List Event} {s : State} (busy : s.busy = true)
    (h : ∀ e ∈ script, e ≠ .hardReset ∧ ∀ v, e = .write 0x0004 v → v.getLsbD 0 = false) :
    Completes { s with script := script } := by
  induction script generalizing s with
  | nil => exact completes_of_engineTurn busy (step_emptyScript s)
  | cons e rest ih =>
    obtain ⟨⟨notReset, notSrst⟩, hrest⟩ := List.forall_mem_cons.mp h
    by_cases he : e = .engine
    · subst he
      exact completes_of_engineTurn busy (step_engine s rest)
    · obtain ⟨words, hwords⟩ := step_of_isTraffic rest busy (isTraffic_of_not_reset he notReset notSrst)
      exact completes_of_step hwords (ih (s := { s with replies := words ++ s.replies }) busy hrest)

/-- Settles O17: the traffic before the engine's first turn changes the host's side only, and with no events left the
engine has its turn. -/
theorem everyIssuedCommandCompletes : Obligations.EveryIssuedCommandCompletes := by
  unfold Obligations.EveryIssuedCommandCompletes
  intro s busy h
  exact completes_of_no_reset busy h

end Sys2Proof.Machine
end

section
/-! What a host read depends on (spec 10_state.md R17 to R23, 20_memory.md R32 to R34), and the frames of the commands
(40_bigint.md R61). -/

namespace Sys2Proof.Machine

/-! ## The words that the registers of the map read as -/

theorem hostRead_cmd (s : State) : hostRead s 0x0000#13 = s.cmd.setWidth 64 := by simp [hostRead, hostReg_cmd]

theorem hostRead_flags (s : State) : hostRead s 0x0003#13 = BitVec.ofNat 64 s.flags.value := by
  simp [hostRead, hostReg_flags]

theorem hostRead_xlimb (s : State) {i : Nat} (hi : i < s.params.maxLimbs) :
    hostRead s (BitVec.ofNat 13 (0x1000 + i)) = BitVec.ofNat 64 (s.limbAt i) := by
  simp only [hostRead, hostReg_xlimb s.params hi]

/-- A small number in a host word is read whole. -/
theorem toNat_word_of_lt {n : Nat} (h : n < 2 ^ 64) : (BitVec.ofNat 64 n : Word).toNat = n := by
  rw [BitVec.toNat_ofNat, Nat.mod_eq_of_lt h]

theorem toNat_hostRead_err (s : State) : (hostRead s 0x0002).toNat = errValue s := by
  rw [hostRead_err, toNat_word_of_lt ((errValue_le s).trans_lt (by decide))]

theorem toNat_hostRead_status (s : State) :
    (hostRead s 0x0001).toNat = (if s.busy then 1 else 0) + (if s.err = none then 0 else 2) := by
  have e : hostRead s 0x0001 = BitVec.ofNat 64 (statusValue s) := hostRead_status s
  rw [e]
  cases hb : s.busy <;> cases he : s.err <;> simp [statusValue, hb, he]

theorem flagsValue_le (f : Flags) : f.value ≤ 31 := by
  have le (b : Bool) : b.toNat ≤ 1 := Bool.toNat_le b
  have := le f.lt
  have := le f.eq
  have := le f.gt
  have := le f.even
  have := le f.zero
  unfold Flags.value
  omega

theorem toNat_hostRead_flags (s : State) : (hostRead s 0x0003).toNat =
    (if s.flags.lt then 1 else 0) + (if s.flags.eq then 2 else 0) + (if s.flags.gt then 4 else 0) +
      (if s.flags.even then 8 else 0) + (if s.flags.zero then 16 else 0) := by
  have bit (k : Nat) (b : Bool) : (if b then k else 0) = k * b.toNat := by cases b <;> simp
  have bound : s.flags.value < 2 ^ 64 := (flagsValue_le s.flags).trans_lt (by decide)
  have e : hostRead s 0x0003 = BitVec.ofNat 64 s.flags.value := hostRead_flags s
  rw [e, toNat_word_of_lt bound]
  simp only [Flags.value, bit, one_mul]

theorem toNat_hostRead_xlimb {s : State} (wf : Memory.wf s.params s.xlimb) {i : Nat} (hi : i < s.params.maxLimbs) :
    (hostRead s (BitVec.ofNat 13 (0x1000 + i))).toNat = s.limbAt i := by
  have bound : s.limbAt i < 2 ^ 64 :=
    (Memory.read_lt wf i).trans_le (Nat.pow_le_pow_right (by decide) s.params.limbBits_le)
  rw [hostRead_xlimb s hi, toNat_word_of_lt bound]

/-- Settles O12: each word is the register's number, which fits a host word. -/
theorem hostReadsFollowTheMap : Obligations.HostReadsFollowTheMap := by
  unfold Obligations.HostReadsFollowTheMap
  intro s wf
  have err {k : ErrKind} (h : s.err = some k) : (hostRead s 0x0002).toNat = k.code := by
    rw [toNat_hostRead_err, errValue, h]
  have cmd : hostRead s 0x0000 = s.cmd.setWidth 64 := hostRead_cmd s
  have noErr (h : s.err = none) : (hostRead s 0x0002).toNat = 0 := by rw [toNat_hostRead_err, errValue, h]
  refine ⟨?_, toNat_hostRead_status s, noErr, err, err, err, err, err, toNat_hostRead_flags s, ?_, ?_,
    fun i hi => toNat_hostRead_xlimb wf hi⟩
  · rw [cmd, BitVec.toNat_setWidth, Nat.mod_eq_of_lt (s.cmd.isLt.trans (by decide))]
  · rw [hostRead_xsign]
    cases s.xsign <;> rfl
  · rw [hostRead_xlen, BitVec.toNat_setWidth, Nat.mod_eq_of_lt (s.xlen.isLt.trans (by decide))]

/-! ## States that read alike -/

/-- The states agree in what a read of the address `a` sees. Only the parts that an update may have touched need a
proof. -/
structure AgreeAt (a : Addr) (s t : State) : Prop where
  params : t.params = s.params := by rfl
  cmd : a = 0x0000#13 → t.cmd = s.cmd := by intro _; rfl
  status : a = 0x0001#13 → t.busy = s.busy ∧ t.err = s.err := by intro _; exact ⟨rfl, rfl⟩
  err : a = 0x0002#13 → t.err = s.err := by intro _; rfl
  flags : a = 0x0003#13 → t.flags = s.flags := by intro _; rfl
  xsign : a = 0x0005#13 → t.xsign = s.xsign := by intro _; rfl
  xlen : a = 0x0006#13 → t.xlen = s.xlen := by intro _; rfl
  xlimb : ∀ i < s.params.maxLimbs, a = BitVec.ofNat 13 (0x1000 + i) → t.limbAt i = s.limbAt i := by
    intro _ _ _; rfl

theorem AgreeAt.hostRead_eq {a : Addr} {s t : State} (h : AgreeAt a s t) : hostRead t a = hostRead s a := by
  rcases hostReg_cases s.params a with rfl | rfl | rfl | rfl | rfl | rfl | rfl | ⟨i, hi, rfl⟩ | ha
  · rw [hostRead_cmd, hostRead_cmd, h.cmd rfl]
  · obtain ⟨busy, err⟩ := h.status rfl
    rw [hostRead_status, hostRead_status, statusValue, statusValue, busy, err]
  · exact (hostRead_err t).trans (by rw [errValue, h.err rfl]; exact (hostRead_err s).symm)
  · rw [hostRead_flags, hostRead_flags, h.flags rfl]
  · rw [hostRead_ctrl, hostRead_ctrl]
  · exact (hostRead_xsign t).trans (by rw [h.xsign rfl]; exact (hostRead_xsign s).symm)
  · exact (hostRead_xlen t).trans (by rw [h.xlen rfl]; exact (hostRead_xlen s).symm)
  · rw [hostRead_xlimb s hi, hostRead_xlimb t (h.params.symm ▸ hi), h.xlimb i hi rfl]
  · rw [hostRead_reserved s ha, hostRead_reserved t (h.params.symm ▸ ha)]

theorem step_write_xlimb {s : State} {i : Nat} (v : Word) (rest : List Event) (idle : s.busy = false)
    (hi : i < s.params.maxLimbs) :
    step { s with script := .write (BitVec.ofNat 13 (0x1000 + i)) v :: rest } =
      .next { s with script := rest, xlimb := s.xlimb.write i (v.toNat % 2 ^ s.params.limbBits) } :=
  step_write_of_hostWrite_eq ((hostWrite_idle (s := { s with script := rest }) v (xlimbAddr_ne_ctrl hi) idle).trans
    (idleWrite_xlimb v hi))

/-- Settles O15: the write keeps the limbs canonical and changes the one at its address, to a number of W bits. -/
theorem limbWriteReadsBack : Obligations.LimbWriteReadsBack := by
  unfold Obligations.LimbWriteReadsBack
  intro s t v i rest idle wf hi ht
  obtain rfl := Host.Outcome.next.inj ((step_write_xlimb v rest idle hi).symm.trans ht)
  have wf' := Memory.wf_write wf hi (Nat.mod_lt v.toNat (by positivity))
  have limb (j : Nat) := Memory.read_write s.xlimb i j (v.toNat % 2 ^ s.params.limbBits) wf.1
  refine ⟨?_, fun a ha => ?_⟩
  · have here := toNat_hostRead_xlimb (s := { s with script := rest, xlimb := s.xlimb.write i _ }) wf' hi
    exact here.trans ((limb i).trans (if_pos rfl))
  · have elsewhere : ∀ j < s.params.maxLimbs, a = BitVec.ofNat 13 (0x1000 + j) →
        (s.xlimb.write i (v.toNat % 2 ^ s.params.limbBits)).read j = s.xlimb.read j := fun j _ hj =>
      (limb j).trans (if_neg (by rintro rfl; exact ha hj))
    exact AgreeAt.hostRead_eq { xlimb := elsewhere }

/-! ## The frames of the commands -/

theorem destOf_eq_of_mem {rd ra rb rm : Reg} {imm : Nat} {i : Instr}
    (h : i ∈ [Instr.ldi rd imm, .load rd, .add rd ra rb, .sub rd ra rb, .mul rd ra rb, .mod rd ra rm,
      .mulMod rd ra rb rm, .modExp rd ra rb rm, .gcd rd ra rb, .modInv rd ra rm]) : destOf i = some rd := by
  simp only [List.mem_cons, List.not_mem_nil, or_false] at h
  rcases h with rfl | rfl | rfl | rfl | rfl | rfl | rfl | rfl | rfl | rfl <;> rfl

/-- A command with a destination ends in a fault or writes its destination. -/
theorem exec_cases_of_dest {i : Instr} {rd : Reg} {s t : State} (hd : destOf i = some rd) (h : exec i s = .next t) :
    (∃ k, t = takeFault k s) ∨ ∃ v, t = finish (s.setX rd v) := by
  rcases exec_cases h with fault | ⟨r, v, hr, -, ht⟩ | ⟨f, hf, -, -⟩ | ⟨ra, rfl, -⟩
  · exact .inl fault
  · obtain rfl : r = rd := Option.some.inj (hr.symm.trans hd)
    exact .inr ⟨v, ht⟩
  · simp [hf] at hd
  · cases hd

/-- Settles O53: a fault touches ERR and BUSY, a register write the destination and BUSY, and of these a host read sees
STATUS and ERR. -/
theorem registerCommandFrame : Obligations.RegisterCommandFrame := by
  unfold Obligations.RegisterCommandFrame
  intro s t rd ra rb rm imm i hi ht
  rcases exec_cases_of_dest (destOf_eq_of_mem hi) ht with ⟨k, rfl⟩ | ⟨v, rfl⟩
  · exact ⟨fun _ _ => rfl, rfl, rfl, rfl, rfl, fun _ => rfl, rfl, rfl, rfl, rfl, .inr ⟨by simp, rfl⟩, fun a h1 h2 =>
      AgreeAt.hostRead_eq { status := fun h => absurd h h1, err := fun h => absurd h h2 }⟩
  · exact ⟨fun r hr => x_setX_of_ne s rd v hr, rfl, rfl, rfl, rfl, fun _ => rfl, rfl, rfl, rfl, rfl, .inl rfl,
      fun a h1 _ => AgreeAt.hostRead_eq { status := fun h => absurd h h1 }⟩

/-- Settles O54: each of the three writes FLAGS, in its own flags only, and BUSY, and of these a host read sees STATUS
and FLAGS. -/
theorem flagCommandFrame : Obligations.FlagCommandFrame := by
  unfold Obligations.FlagCommandFrame
  intro s t ra rb i hi ht
  have reads (f : Flags) (a : Addr) (h1 : a ≠ 0x0001) (h3 : a ≠ 0x0003) :
      hostRead (finish { s with flags := f }) a = hostRead s a :=
    AgreeAt.hostRead_eq { status := fun h => absurd h h1, flags := fun h => absurd h h3 }
  simp only [List.mem_cons, List.not_mem_nil, or_false] at hi
  rcases hi with rfl | rfl | rfl <;> obtain rfl := Host.Outcome.next.inj ht
  · exact ⟨fun _ => rfl, rfl, rfl, rfl, rfl, fun _ => rfl, rfl, rfl, rfl, rfl,
      fun _ => ⟨rfl, rfl⟩, fun h => absurd rfl h, fun h => (by cases h), fun h => (by cases h), reads _⟩
  · exact ⟨fun _ => rfl, rfl, rfl, rfl, rfl, fun _ => rfl, rfl, rfl, rfl, rfl,
      fun h => (by cases h), fun _ => ⟨rfl, rfl, rfl⟩, fun _ => rfl, fun h => (by cases h), reads _⟩
  · exact ⟨fun _ => rfl, rfl, rfl, rfl, rfl, fun _ => rfl, rfl, rfl, rfl, rfl,
      fun h => (by cases h), fun _ => ⟨rfl, rfl, rfl⟩, fun h => (by cases h), fun _ => rfl, reads _⟩

/-- Settles O55: STORE fills the transfer buffer and clears BUSY, and a host read sees these at STATUS and the buffer's
addresses. -/
theorem storeFrame : Obligations.StoreFrame := by
  unfold Obligations.StoreFrame
  intro s t ra ht
  obtain rfl := Host.Outcome.next.inj ht
  refine ⟨fun _ => rfl, rfl, rfl, rfl, rfl, rfl, rfl, rfl, fun a h1 h5 h6 outside => ?_⟩
  have noLimb : ∀ i < s.params.maxLimbs, a ≠ BitVec.ofNat 13 (0x1000 + i) := by
    rintro i hi rfl
    have := s.params.maxLimbs_le
    exact outside (by simp only [BitVec.toNat_ofNat]; omega)
  exact AgreeAt.hostRead_eq
    { status := fun h => absurd h h1, xsign := fun h => absurd h h5, xlen := fun h => absurd h h6,
      xlimb := fun i hi h => absurd h (noLimb i hi) }

end Sys2Proof.Machine
end

section
/-! What a command's result depends on: not on FLAGS (spec 10_state.md R20), and on the parameters through the capacity
only (40_bigint.md R72 (f)). -/

namespace Sys2Proof.Machine

/-! ## A command as its result given to `complete` -/

/-- The result of a command's pseudocode, which its completion applies (spec 20_memory.md R43). -/
def resultOf (s : State) : Instr → CmdResult
  | .ldi rd imm => writeReg s.params rd (immValue imm)
  | .load rd => bufferValue s >>= writeReg s.params rd
  | .store ra => .ok (.image (s.x ra))
  | .add rd ra rb => writeReg s.params rd (s.x ra + s.x rb)
  | .sub rd ra rb => writeReg s.params rd (s.x ra - s.x rb)
  | .mul rd ra rb => writeReg s.params rd (s.x ra * s.x rb)
  | .mod rd ra rm => checkMod (s.x rm) >>= fun _ => writeReg s.params rd (emod (s.x ra) (s.x rm))
  | .cmp ra rb => .ok (.flags (compareFlags s.flags (s.x ra) (s.x rb)))
  | .isEven ra => .ok (.flags (parityFlags s.params.limbBits s.flags (s.x ra)))
  | .isZero ra => .ok (.flags (zeroFlags s.flags (s.x ra)))
  | .mulMod rd ra rb rm => checkMod (s.x rm) >>= fun _ => writeReg s.params rd (emod (s.x ra * s.x rb) (s.x rm))
  | .modExp rd ra rb rm => checkMod (s.x rm) >>= fun _ => checkNonneg (s.x rb) >>= fun _ =>
      writeReg s.params rd (modExpValue (s.x ra) (s.x rb).natAbs (s.x rm))
  | .gcd rd ra rb => checkNonneg (s.x ra) >>= fun _ => checkNonneg (s.x rb) >>= fun _ =>
      writeReg s.params rd (gcdValue (s.x ra) (s.x rb))
  | .modInv rd ra rm => checkMod (s.x rm) >>= fun _ => inverseValue (s.x ra) (s.x rm) >>= writeReg s.params rd

theorem exec_eq_complete (i : Instr) (s : State) : exec i s = complete (resultOf s i) s := by
  cases i <;> rfl

theorem resultOf_writesOnly {i : Instr} {rd : Reg} (s : State) (h : destOf i = some rd) :
    WritesOnly s.params rd (resultOf s i) := by
  have w := writesOnly_writeReg s.params
  cases i with
  | store | cmp | isEven | isZero => cases h
  | ldi | add | sub | mul => exact Option.some.inj h ▸ w _ _
  | load | mod | mulMod => exact Option.some.inj h ▸ writesOnly_bind _ fun _ => w _ _
  | modExp | gcd | modInv => exact Option.some.inj h ▸ writesOnly_bind _ fun _ => writesOnly_bind _ fun _ => w _ _

/-! ## No command reads FLAGS (spec 10_state.md R20) -/

/-- The command is none of the three that write FLAGS. -/
def WritesNoFlags (i : Instr) : Prop := (∀ ra rb, i ≠ .cmp ra rb) ∧ (∀ ra, i ≠ .isEven ra) ∧ ∀ ra, i ≠ .isZero ra

theorem resultOf_withFlags {i : Instr} (h : WritesNoFlags i) (s : State) (f : Flags) :
    resultOf { s with flags := f } i = resultOf s i := by
  obtain ⟨notCmp, notIsEven, notIsZero⟩ := h
  cases i with
  | cmp ra rb => exact absurd rfl (notCmp ra rb)
  | isEven ra => exact absurd rfl (notIsEven ra)
  | isZero ra => exact absurd rfl (notIsZero ra)
  | _ => rfl

theorem resultOf_ne_flags {i : Instr} (h : WritesNoFlags i) (s : State) (f : Flags) :
    resultOf s i ≠ .ok (.flags f) := by
  obtain ⟨notCmp, notIsEven, notIsZero⟩ := h
  cases hd : destOf i with
  | some rd =>
    rcases resultOf_writesOnly s hd with ⟨v, hv, -⟩ | ⟨k, hk⟩
    · simp [hv]
    · simp [hk]
  | none =>
    cases i with
    | cmp ra rb => exact absurd rfl (notCmp ra rb)
    | isEven ra => exact absurd rfl (notIsEven ra)
    | isZero ra => exact absurd rfl (notIsZero ra)
    | store ra => simp [resultOf]
    | _ => cases hd

theorem complete_withFlags {r : CmdResult} {s t : State} (f : Flags) (hr : ∀ g, r ≠ .ok (.flags g))
    (h : complete r s = .next t) : complete r { s with flags := f } = .next { t with flags := f } := by
  rcases complete_cases h with ⟨e, rfl, rfl⟩ | ⟨k, rfl, rfl⟩
  · cases e with
    | flags g => exact absurd rfl (hr g)
    | _ => rfl
  · rfl

theorem exec_withFlags {i : Instr} {s t : State} (f : Flags) (hi : WritesNoFlags i) (h : exec i s = .next t) :
    exec i { s with flags := f } = .next { t with flags := f } := by
  rw [exec_eq_complete] at h ⊢
  rw [resultOf_withFlags hi]
  exact complete_withFlags f (resultOf_ne_flags hi s) h

/-- Settles O57: the flags that a command writes are computed from its operands, and no other command has FLAGS in its
result. -/
theorem noCommandReadsFlags : Obligations.NoCommandReadsFlags := by
  unfold Obligations.NoCommandReadsFlags
  intro s t i f ht
  by_cases hi : WritesNoFlags i
  · have run := exec_withFlags f hi ht
    obtain ⟨notCmp, notIsEven, notIsZero⟩ := hi
    exact ⟨_, run, rfl, fun _ => ⟨rfl, rfl, rfl⟩, fun ⟨ra, rb, h⟩ => absurd h (notCmp ra rb),
      fun _ => rfl, fun ⟨ra, h⟩ => absurd h (notIsEven ra), fun _ => rfl, fun ⟨ra, h⟩ => absurd h (notIsZero ra)⟩
  · have flagCommand : (∃ ra rb, i = .cmp ra rb) ∨ (∃ ra, i = .isEven ra) ∨ ∃ ra, i = .isZero ra := by
      by_contra none
      simp only [not_or, not_exists] at none
      exact hi none
    rcases flagCommand with ⟨ra, rb, rfl⟩ | ⟨ra, rfl⟩ | ⟨ra, rfl⟩ <;> obtain rfl := Host.Outcome.next.inj ht
    · exact ⟨_, rfl, rfl, fun h => absurd rfl (h ra rb), fun _ => ⟨rfl, rfl, rfl⟩, fun _ => rfl,
        fun ⟨_, h⟩ => (by cases h), fun _ => rfl, fun ⟨_, h⟩ => by cases h⟩
    · exact ⟨_, rfl, rfl, fun _ => ⟨rfl, rfl, rfl⟩, fun ⟨_, _, h⟩ => (by cases h), fun h => absurd rfl (h ra),
        fun _ => rfl, fun _ => rfl, fun ⟨_, h⟩ => by cases h⟩
    · exact ⟨_, rfl, rfl, fun _ => ⟨rfl, rfl, rfl⟩, fun ⟨_, _, h⟩ => (by cases h), fun _ => rfl,
        fun ⟨_, h⟩ => (by cases h), fun h => absurd rfl (h ra), fun _ => rfl⟩

/-! ## The parameters matter through the capacity only (spec 40_bigint.md R72 (f)) -/

/-- The results do not differ unless one of them is a fault. -/
def AgreeIfOk (r r' : CmdResult) : Prop := ∀ e e', r = .ok e → r' = .ok e' → e = e'

theorem agreeIfOk_refl (r : CmdResult) : AgreeIfOk r r := fun _ _ h h' => Except.ok.inj (h.symm.trans h')

theorem agreeIfOk_writeReg (p p' : Params) (rd : Reg) (v : Int) : AgreeIfOk (writeReg p rd v) (writeReg p' rd v) := by
  intro e e' h h'
  rcases writeReg_cases h with ⟨ok, -⟩ | ⟨error, -⟩
  · rcases writeReg_cases h' with ⟨ok', -⟩ | ⟨error', -⟩
    · exact (Except.ok.inj ok).trans (Except.ok.inj ok').symm
    · cases error'
  · cases error

theorem agreeIfOk_bind {α : Type} (c : Except ErrKind α) {f f' : α → CmdResult} (h : ∀ a, AgreeIfOk (f a) (f' a)) :
    AgreeIfOk (c >>= f) (c >>= f') := by
  cases c with
  | ok a => exact h a
  | error k => intro _ _ h; cases h

theorem resultOf_withParams {i : Instr} (hload : ∀ r, i ≠ .load r) (s : State) (p : Params) :
    AgreeIfOk (resultOf s i) (resultOf { s with params := p } i) := by
  have w := agreeIfOk_writeReg s.params p
  cases i with
  | load rd => exact absurd rfl (hload rd)
  | store | cmp | isZero => exact agreeIfOk_refl _
  | isEven ra =>
    have same : resultOf { s with params := p } (.isEven ra) = resultOf s (.isEven ra) := by
      simp only [resultOf, parityFlags_eq p.limbBits_pos, parityFlags_eq s.params.limbBits_pos]
      rfl
    exact same ▸ agreeIfOk_refl _
  | ldi rd imm => exact w rd _
  | add rd ra rb => exact w rd _
  | sub rd ra rb => exact w rd _
  | mul rd ra rb => exact w rd _
  | mod rd ra rm => exact agreeIfOk_bind _ fun _ => w rd _
  | mulMod rd ra rb rm => exact agreeIfOk_bind _ fun _ => w rd _
  | modExp rd ra rb rm => exact agreeIfOk_bind _ fun _ => agreeIfOk_bind _ fun _ => w rd _
  | gcd rd ra rb => exact agreeIfOk_bind _ fun _ => agreeIfOk_bind _ fun _ => w rd _
  | modInv rd ra rm => exact agreeIfOk_bind _ fun _ => agreeIfOk_bind _ fun v => w rd v

theorem exec_ok_of_clean {i : Instr} {s t : State} (h : exec i s = .next t) (clean : t.err = none) :
    ∃ e, resultOf s i = .ok e ∧ t = finish (applyEffect e s) := by
  rw [exec_eq_complete] at h
  rcases complete_cases h with ok | ⟨k, -, rfl⟩
  · exact ok
  · cases clean

/-- Settles O42: without a fault both completions apply the same effect, and registers and flags take nothing from the
parameters there. -/
theorem resultsDoNotDependOnTheParameters : Obligations.ResultsDoNotDependOnTheParameters := by
  unfold Obligations.ResultsDoNotDependOnTheParameters
  intro s t t' p i notLoad _ _ ht ht' clean clean'
  obtain ⟨e, ok, rfl⟩ := exec_ok_of_clean ht clean
  obtain ⟨e', ok', rfl⟩ := exec_ok_of_clean ht' clean'
  obtain rfl : e = e' := resultOf_withParams notLoad s p e e' ok ok'
  cases e with
  | reg rd v => exact ⟨fun _ => rfl, rfl⟩
  | flags f => exact ⟨fun _ => rfl, rfl⟩
  | image v => exact ⟨fun _ => rfl, rfl⟩

end Sys2Proof.Machine
end

section
/-! The canonical form of an integer (spec 10_state.md R14) and the transfer buffer that holds it (20_memory.md R37,
R38). -/

namespace Sys2Proof.Machine

/-! ## Limbs as the digits of a weighted sum -/

section
variable {w : Nat} {m : Memory}

theorem le_limbSum_succ (n : Nat) : m.read n * 2 ^ (w * n) ≤ limbSum w m (n + 1) := Nat.le_add_left _ _

/-- Limbs of W bits are the digits of their weighted sum. -/
theorem limbSum_div_mod (h : ∀ i, m.read i < 2 ^ w) {i n : Nat} (hi : i < n) :
    limbSum w m n / 2 ^ (w * i) % 2 ^ w = m.read i := by
  induction n with
  | zero => omega
  | succ n ih =>
    rw [limbSum]
    rcases Nat.lt_succ_iff_lt_or_eq.mp hi with below | rfl
    · obtain ⟨k, rfl⟩ := Nat.exists_eq_add_of_lt below
      have above : m.read (i + k + 1) * 2 ^ (w * (i + k + 1)) =
          2 ^ (w * i) * (2 ^ w * (m.read (i + k + 1) * 2 ^ (w * k))) := by ring
      rw [above, Nat.add_mul_div_left _ _ (by positivity), Nat.add_mul_mod_self_left, ih below]
    · rw [Nat.add_mul_div_right _ _ (by positivity), Nat.div_eq_of_lt (limbSum_lt h i), zero_add,
        Nat.mod_eq_of_lt (h i)]

end

theorem Memory.read_ofFn_of_lt (f : Nat → Nat) {i n : Nat} (hi : i < n) : (ofFn f 0 n).read i = f i := by
  rw [read_ofFn, if_pos ⟨Nat.zero_le i, by omega⟩]

/-- The limbs of `f` below `n` as a memory, so that the laws of memories speak of them. -/
theorem limbSum_ofFn (w : Nat) (f : Nat → Nat) (n : Nat) :
    (limbSum w (Memory.ofFn f 0 n) n : Int) = ∑ i ∈ Finset.range n, (f i : Int) * 2 ^ (w * i) := by
  rw [limbSum_eq_sum]
  exact Finset.sum_congr rfl fun i hi => by rw [Memory.read_ofFn_of_lt f (Finset.mem_range.mp hi)]

theorem sum_limb_eq_natAbs {w : Nat} (hw : 0 < w) (v : Int) :
    (v.natAbs : Int) = ∑ i ∈ Finset.range (nlimbs w v), (limb w v i : Int) * 2 ^ (w * i) := by
  have reads (i : Nat) (hi : i < nlimbs w v) := Memory.read_ofFn_of_lt (limb w v) hi
  rw [← limbSum_ofFn, sum_limb w v _ _ reads, Nat.mod_eq_of_lt (natAbs_lt_pow_nlimbs hw v)]

/-- The top limb of a form longer than one limb is not 0. -/
theorem top_limb_ne_zero {w : Nat} (hw : 0 < w) {v : Int} (h : nlimbs w v ≠ 1) : limb w v (nlimbs w v - 1) ≠ 0 := by
  have nonzero : v ≠ 0 := by
    rintro rfl
    have short := (nlimbs_le_iff hw 0 le_rfl).mpr (by positivity)
    exact h (short.antisymm (one_le_nlimbs w 0))
  have width : w * (nlimbs w v - 1) + w = w * nlimbs w v := by
    rw [← Nat.mul_succ, Nat.succ_eq_add_one, Nat.sub_add_cancel (one_le_nlimbs w v)]
  have high : v.natAbs / 2 ^ (w * (nlimbs w v - 1)) < 2 ^ w := by
    rw [Nat.div_lt_iff_lt_mul (by positivity), mul_comm, ← pow_add, width]
    exact natAbs_lt_pow_nlimbs hw v
  rw [limb, Nat.mod_eq_of_lt high]
  exact (Nat.div_pos (pow_pred_nlimbs_le_natAbs hw nonzero) (by positivity)).ne'

/-! ## The form is unique per value -/

/-- A form of `v`: sign, number of limbs and limbs. -/
structure IsForm (w : Nat) (v : Int) (sign : Bool) (len : Nat) (f : Nat → Nat) : Prop where
  one_le : 1 ≤ len
  limb_lt : ∀ i, f i < 2 ^ w
  top : len = 1 ∨ f (len - 1) ≠ 0
  sign_zero : v = 0 → sign = false
  value : v = (if sign then -1 else 1) * ∑ i ∈ Finset.range len, (f i : Int) * 2 ^ (w * i)

namespace IsForm

variable {w : Nat} {v : Int} {sign : Bool} {len : Nat} {f : Nat → Nat} (h : IsForm w v sign len f)
include h

theorem natAbs_eq : v.natAbs = limbSum w (Memory.ofFn f 0 len) len := by
  have value := h.value
  rw [← limbSum_ofFn] at value
  split at value <;> omega

theorem sign_eq : sign = sgn v := by
  have value := h.value
  rw [← limbSum_ofFn] at value
  cases sign with
  | true =>
    have nonzero : v ≠ 0 := fun zero => Bool.noConfusion (h.sign_zero zero)
    rw [if_pos rfl] at value
    exact (decide_eq_true (by omega)).symm
  | false =>
    rw [if_neg Bool.false_ne_true] at value
    exact (decide_eq_false (by omega)).symm

theorem read_lt (i : Nat) : (Memory.ofFn f 0 len).read i < 2 ^ w := by
  rw [Memory.read_ofFn]
  split
  · exact h.limb_lt i
  · positivity

theorem len_eq (hw : 0 < w) : len = nlimbs w v := by
  have bound : v.natAbs < 2 ^ (w * len) := h.natAbs_eq ▸ limbSum_lt h.read_lt len
  refine le_antisymm ?_ ((nlimbs_le_iff hw v h.one_le).mpr bound)
  obtain ⟨n, rfl⟩ := Nat.exists_eq_add_of_le' h.one_le
  rcases h.top with one | top
  · exact one.trans_le (one_le_nlimbs w v)
  · by_contra! short
    rw [Nat.add_sub_cancel] at top
    have weight : 2 ^ (w * n) ≤ v.natAbs := by
      calc 2 ^ (w * n) ≤ f n * 2 ^ (w * n) := Nat.le_mul_of_pos_left _ (Nat.pos_of_ne_zero top)
        _ = (Memory.ofFn f 0 (n + 1)).read n * 2 ^ (w * n) := by rw [Memory.read_ofFn_of_lt f n.lt_succ_self]
        _ ≤ v.natAbs := h.natAbs_eq ▸ le_limbSum_succ n
    have := (nlimbs_le_iff hw v ((one_le_nlimbs w v).trans (Nat.le_of_lt_succ short))).mp (Nat.le_of_lt_succ short)
    omega

theorem limb_eq {i : Nat} (hi : i < len) : f i = limb w v i := by
  rw [limb, h.natAbs_eq, limbSum_div_mod h.read_lt hi, Memory.read_ofFn_of_lt f hi]

end IsForm

/-- Settles O29: the limbs are the digits of the magnitude, and the limb count says how many there are. -/
theorem canonicalForm : Obligations.CanonicalForm := by
  unfold Obligations.CanonicalForm
  intro p v
  have hw := p.limbBits_pos
  refine ⟨sum_limb_eq_natAbs hw v, one_le_nlimbs _ v, or_iff_not_imp_left.mpr (top_limb_ne_zero hw), limb_lt _ v, ?zero,
    nlimbs_le_iff hw v p.one_le_maxLimbs, ?signed, fun sign len f one_le limb_lt top sign_zero value => ?unique⟩
  case zero =>
    rintro rfl
    have short : nlimbs p.limbBits 0 ≤ 1 := (nlimbs_le_iff hw 0 le_rfl).mpr (by positivity)
    exact ⟨rfl, short.antisymm (one_le_nlimbs _ 0), by simp [limb]⟩
  case signed =>
    simp only [sgn, decide_eq_true_eq]
    split <;> omega
  case unique =>
    have form : IsForm p.limbBits v sign len f := ⟨one_le, limb_lt, top, sign_zero, value⟩
    exact ⟨form.sign_eq, form.len_eq hw, fun i => form.limb_eq⟩

/-! ## STORE, then LOAD (spec 20_memory.md R38) -/

theorem limbSum_storeImage {v : Int} {s : State} (h : v.natAbs < 2 ^ s.params.capacity) :
    limbSum s.params.limbBits (storeImage v s).xlimb (nlimbs s.params.limbBits v) = v.natAbs := by
  have hw := s.params.limbBits_pos
  have count : nlimbs s.params.limbBits v ≤ s.params.maxLimbs := (nlimbs_le_iff hw v s.params.one_le_maxLimbs).mpr h
  have reads : ∀ i < nlimbs s.params.limbBits v, (storeImage v s).xlimb.read i = limb s.params.limbBits v i := by
    intro i hi
    rw [storeImage_xlimb, Memory.read_ofFn_of_lt _ (hi.trans_le count), imageLimb, if_pos hi]
  rw [sum_limb _ v _ _ reads, Nat.mod_eq_of_lt (natAbs_lt_pow_nlimbs hw v)]

/-- The image of a value within capacity is read back as the value. -/
theorem bufferValue_storeImage {v : Int} {s : State} (h : v.natAbs < 2 ^ s.params.capacity) :
    bufferValue (storeImage v s) = .ok v := by
  have len := storeImage_xlen_toNat h
  have count := (nlimbs_le_iff s.params.limbBits_pos v s.params.one_le_maxLimbs).mpr h
  rw [bufferValue_of_le (by rw [len]; exact count), len, storeImage_params, limbSum_storeImage h, storeImage_xsign]
  simp only [sgn, decide_eq_true_eq]
  congr 1
  split <;> omega

/-- LOAD after STORE writes the stored value. -/
theorem execLoad_after_store {s : State} {v : Int} (rd : Reg) (h : v.natAbs < 2 ^ s.params.capacity) :
    exec (.load rd) (finish (storeImage v s)) = .next (finish ((finish (storeImage v s)).setX rd v)) :=
  (execLoad_of_ok rd (s := finish (storeImage v s)) (bufferValue_storeImage h)).trans (complete_writeReg_of_lt rd h)

/-- Settles O33: the image takes the value and the parameters only, and its value is the stored one. -/
theorem storeThenLoadReproducesTheValue : Obligations.StoreThenLoadReproducesTheValue := by
  unfold Obligations.StoreThenLoadReproducesTheValue
  refine ⟨fun s s' t t' ra ra' params value ht ht' => ?_, fun s rd ra fit => ?_⟩
  · obtain rfl := Host.Outcome.next.inj ht
    obtain rfl := Host.Outcome.next.inj ht'
    simp [applyEffect, params, value]
  · exact ⟨_, _, rfl, execLoad_after_store rd (fit ra), x_setX_same _ rd _, fun r hr => x_setX_of_ne _ rd _ hr⟩

end Sys2Proof.Machine
end

section
/-! Laws that tie the commands to each other, run as commands (spec 30_encoding.md R58, 40_bigint.md R73, 41_modular.md
R78 and R86). Each command of a chain ends in `finish (s.setX rd v)`, so the laws of `setX` say what the next one
reads. -/

namespace Sys2Proof.Machine

/-- Every command keeps the registers within capacity. -/
theorem exec_regsFit {i : Instr} {s t : State} (fit : s.RegsFit) (ht : exec i s = .next t) : t.RegsFit := by
  rcases exec_cases ht with ⟨k, rfl⟩ | ⟨rd, v, -, hv, rfl⟩ | ⟨f, -, -, rfl⟩ | ⟨ra, -, rfl⟩
  · exact fit
  · intro r
    rw [finish_x, x_setX]
    split
    · exact hv
    · exact fit r
  · exact fit
  · exact fit

theorem finish_setX_same (s : State) (r : Reg) (v : Int) : (finish (s.setX r v)).x r = v := x_setX_same s r v

theorem finish_setX_of_ne (s : State) {r q : Reg} (v : Int) (h : r ≠ q) : (finish (s.setX r v)).x q = s.x q :=
  x_setX_of_ne s r v h.symm

/-! ## What the modular commands write -/

section
variable {s : State} (fit : s.RegsFit) (rd ra rb : Reg) {rm : Reg}
include fit

theorem execMod_writes (pos : 0 < s.x rm) :
    exec (.mod rd ra rm) s = .next (finish (s.setX rd (s.x ra % s.x rm))) := by
  rw [execMod_of_pos rd ra pos, emod_eq _ pos]
  exact complete_writeReg_of_lt_modulus rd (fit rm) (Int.emod_nonneg _ pos.ne') (Int.emod_lt_of_pos _ pos)

theorem execMulMod_writes (pos : 0 < s.x rm) :
    exec (.mulMod rd ra rb rm) s = .next (finish (s.setX rd (s.x ra * s.x rb % s.x rm))) := by
  rw [execMulMod_of_pos rd ra rb fit pos, emod_eq _ pos]
  rfl

theorem execModExp_writes (pos : 0 < s.x rm) (nonneg : 0 ≤ s.x rb) :
    exec (.modExp rd ra rb rm) s = .next (finish (s.setX rd (s.x ra ^ (s.x rb).toNat % s.x rm))) :=
  (modExpIsThePower s rd ra rb rm fit).2.1 pos nonneg

theorem execGcd_writes (ha : 0 ≤ s.x ra) (hb : 0 ≤ s.x rb) :
    exec (.gcd rd ra rb) s = .next (finish (s.setX rd (Int.gcd (s.x ra) (s.x rb)))) :=
  (gcdIsTheGreatestCommonDivisor s rd ra rb fit).2.1 ha hb

theorem execModInv_writes (pos : 0 < s.x rm) (coprime : Int.gcd (s.x ra) (s.x rm) = 1) :
    ∃ d, 0 ≤ d ∧ s.x ra * d % s.x rm = 1 % s.x rm ∧ exec (.modInv rd ra rm) s = .next (finish (s.setX rd d)) := by
  obtain ⟨d, low, -, inverse, run⟩ := (modInvIsTheInverse s rd ra rm fit).2.1 pos coprime
  exact ⟨d, low, inverse, run⟩

end

/-! ## The tests and the arithmetic (R73) -/

/-- Settles O41: MOD writes the remainder, ISEVEN the parity, CMP the three comparisons, and SUB the difference. -/
theorem testsAgreeWithArithmetic : Obligations.TestsAgreeWithArithmetic := by
  unfold Obligations.TestsAgreeWithArithmetic
  intro s rd ra rb rm fit
  refine ⟨fun pos => ⟨_, execMod_writes fit rd ra pos, ?_, ?_⟩, fun two => ?_, fun small => ?_⟩
  · rw [finish_setX_same]
    exact Int.emod_nonneg _ pos.ne'
  · rw [finish_setX_same]
    exact Int.emod_lt_of_pos _ pos
  · refine ⟨_, _, (isEvenWritesTheParity s ra).2.1, execMod_writes fit rd ra (two ▸ by decide), ?_⟩
    rw [finish_setX_same, two, decide_eq_true_eq]
    exact Int.dvd_iff_emod_eq_zero
  · have difference : exec (.sub rd ra rb) s = .next (finish (s.setX rd (s.x ra - s.x rb))) :=
      (subIsExact s rd ra rb).2.1 small
    refine ⟨_, _, (cmpWritesTheCompareFlags s ra rb).2, difference, ?_⟩
    simp only [finish_setX_same, decide_eq_true_eq]
    omega

/-! ## MODEXP (R77, R78, R86) -/

/-- Settles O45: by induction over the iterations, each of which takes up one bit of the exponent. -/
theorem modExpLoopInvariant : Obligations.ModExpLoopInvariant := by
  unfold Obligations.ModExpLoopInvariant
  intro b m e n i pos
  exact modExpLoop_eq_pow b e n i pos

/-- Settles O48: the boundary cases of b^e mod m. -/
theorem modExpBoundaryLaws : Obligations.ModExpBoundaryLaws := by
  unfold Obligations.ModExpBoundaryLaws
  intro s rd ra rb rm fit
  refine ⟨fun zero large => ?_, fun zero posExponent pos => ?_, fun nonneg one => ?_⟩
  · refine ⟨_, execModExp_writes fit rd ra rb (by omega) zero.ge, ?_, rfl⟩
    rw [finish_setX_same, zero, Int.toNat_zero, pow_zero, Int.emod_eq_of_lt (by decide) large]
  · refine ⟨_, execModExp_writes fit rd ra rb pos posExponent.le, ?_, rfl⟩
    rw [finish_setX_same, zero, zero_pow (by omega), Int.zero_emod]
  · refine ⟨_, execModExp_writes fit rd ra rb (by omega) nonneg, ?_, rfl⟩
    rw [finish_setX_same, one, Int.emod_one]

/-! ## GCD and MODINV (R86) -/

/-- Settles O49: gcd(a, 0) = |a|, and a divisor of b divides a exactly when it divides a mod b. -/
theorem gcdEuclidIdentity : Obligations.GcdEuclidIdentity := by
  unfold Obligations.GcdEuclidIdentity
  intro s rd ra rb rq fit nonneg
  refine ⟨fun zero => ⟨_, execGcd_writes fit rd ra rb nonneg zero.ge, ?_, rfl⟩, fun pos hq => ?_⟩
  · rw [finish_setX_same, zero, Int.gcd_zero_right, Int.natAbs_of_nonneg nonneg]
  · have first := execMod_writes fit rq ra pos
    have divisor : (finish (s.setX rq (s.x ra % s.x rb))).x rb = s.x rb := finish_setX_of_ne s _ hq
    have remainder : (finish (s.setX rq (s.x ra % s.x rb))).x rq = s.x ra % s.x rb := finish_setX_same s rq _
    have second := execGcd_writes (exec_regsFit fit first) rd rb rq (pos.le.trans_eq divisor.symm)
      ((Int.emod_nonneg _ pos.ne').trans_eq remainder.symm)
    refine ⟨_, _, _, execGcd_writes fit rd ra rb nonneg pos.le, first, second, ?_, rfl⟩
    rw [finish_setX_same, finish_setX_same, divisor, remainder, Int.gcd_comm (s.x rb), Int.gcd_emod]

/-- Settles O50: MODINV leaves e and phi in their registers for MULMOD. -/
theorem inverseLaw : Obligations.InverseLaw := by
  unfold Obligations.InverseLaw
  intro s rd re rphi ry fit large coprime hre hrphi
  obtain ⟨d, -, inverse, first⟩ := execModInv_writes fit rd re (by omega) coprime
  have e : (finish (s.setX rd d)).x re = s.x re := finish_setX_of_ne s d hre
  have phi : (finish (s.setX rd d)).x rphi = s.x rphi := finish_setX_of_ne s d hrphi
  have written : (finish (s.setX rd d)).x rd = d := finish_setX_same s rd d
  have second := execMulMod_writes (exec_regsFit fit first) ry re rd (rm := rphi) (by omega)
  refine ⟨_, _, first, second, ?_⟩
  rw [finish_setX_same, e, phi, written, inverse, Int.emod_eq_of_lt (by decide) large]

/-! ## RSA (R86) -/

/-- Fermat's little theorem for every x: an exponent that is 1 modulo p - 1 acts as 1. -/
theorem pow_modEq_self_of_prime {p : Nat} (hp : p.Prime) (x : Int) (j : Nat) :
    x ^ (1 + (p - 1) * j) ≡ x [ZMOD p] := by
  rw [pow_add, pow_one, pow_mul]
  by_cases dvd : (p : Int) ∣ x
  · have zero : x ≡ 0 [ZMOD p] := Int.modEq_zero_iff_dvd.mpr dvd
    exact (Int.modEq_zero_iff_dvd.mpr (dvd.mul_right _)).trans zero.symm
  · have coprime : IsCoprime x p := ((Nat.prime_iff_prime_int.mp hp).coprime_iff_not_dvd.mpr dvd).symm
    simpa using ((Int.ModEq.pow_card_sub_one_eq_one hp coprime).pow j).mul_left x

theorem toNat_mul_mod_eq_one {e d : Int} {n : Nat} (he : 0 ≤ e) (hd : 0 ≤ d) (hn : 1 < n)
    (inverse : e * d % n = 1 % n) : e.toNat * d.toNat % n = 1 := by
  lift e to Nat using he
  lift d to Nat using hd
  have natInverse : e * d % n = 1 % n := by exact_mod_cast inverse
  exact natInverse.trans (Nat.mod_eq_of_lt hn)

/-- Two different primes are not both 2. -/
theorem one_lt_totient {p q : Nat} (hp : p.Prime) (hq : q.Prime) (hpq : p ≠ q) : 1 < (p - 1) * (q - 1) := by
  have hp2 := hp.two_le
  have hq2 := hq.two_le
  exact Nat.one_lt_mul_iff.mpr ⟨by omega, by omega, by omega⟩

theorem pow_modEq_self_of_primes {p q : Nat} (hp : p.Prime) (hq : q.Prime) (hpq : p ≠ q) (x : Int) {k : Nat}
    (hk : k % ((p - 1) * (q - 1)) = 1) : x ^ k ≡ x [ZMOD (p * q : Int)] := by
  have split : k = 1 + (p - 1) * (q - 1) * (k / ((p - 1) * (q - 1))) := by
    have := Nat.mod_add_div k ((p - 1) * (q - 1))
    omega
  have coprime : (p : Int).natAbs.Coprime (q : Int).natAbs := (Nat.coprime_primes hp hq).mpr hpq
  refine (Int.modEq_and_modEq_iff_modEq_mul coprime).mp ⟨?_, ?_⟩
  · rw [split, mul_assoc]
    exact pow_modEq_self_of_prime hp x _
  · rw [split, mul_comm (p - 1), mul_assoc]
    exact pow_modEq_self_of_prime hq x _

/-- MODEXP twice, the second time with the first result as the base, multiplies the exponents. -/
theorem execModExp_twice {t : State} (fit : t.RegsFit) {rx re rn rd rc : Reg} (ry : Reg) (pos : 0 < t.x rn)
    (he : 0 ≤ t.x re) (hd : 0 ≤ t.x rd) (hcd : rc ≠ rd) (hcn : rc ≠ rn) :
    ∃ u v, exec (.modExp rc rx re rn) t = .next u ∧ exec (.modExp ry rc rd rn) u = .next v ∧
      v.x ry = t.x rx ^ ((t.x re).toNat * (t.x rd).toNat) % t.x rn ∧ v.err = t.err := by
  have first := execModExp_writes fit rc rx re pos he
  have exponent := finish_setX_of_ne t (t.x rx ^ (t.x re).toNat % t.x rn) hcd
  have modulus := finish_setX_of_ne t (t.x rx ^ (t.x re).toNat % t.x rn) hcn
  have second := execModExp_writes (exec_regsFit fit first) ry rc rd (pos.trans_eq modulus.symm)
    (hd.trans_eq exponent.symm)
  refine ⟨_, _, first, second, ?_, rfl⟩
  rw [finish_setX_same, finish_setX_same, exponent, modulus, pow_mul]
  exact (Int.mod_modEq _ _).pow _

/-- Settles O51: e*d is 1 modulo (p-1)(q-1), so the two powers together are x itself modulo p*q. -/
theorem rsaRoundTrip : Obligations.RsaRoundTrip := by
  unfold Obligations.RsaRoundTrip
  intro s p q rx re rn rphi rd rc ry fit hp hq hpq hn hphi nonnegE coprime nonnegX below hdx hde hdn hcd hcn
  have phi : s.x rphi = ((p - 1) * (q - 1) : Nat) := by
    rw [hphi, Nat.cast_mul, Nat.cast_pred hp.pos, Nat.cast_pred hq.pos]
  have large : 1 < (p - 1) * (q - 1) := one_lt_totient hp hq hpq
  obtain ⟨d, nonnegD, inverse, first⟩ := execModInv_writes fit rd re (by omega) coprime
  have x := finish_setX_of_ne s d hdx
  have e := finish_setX_of_ne s d hde
  have n := finish_setX_of_ne s d hdn
  have written := finish_setX_same s rd d
  obtain ⟨u, v, second, third, value, err⟩ := execModExp_twice (exec_regsFit fit first) (rx := rx) ry
    ((nonnegX.trans_lt below).trans_eq n.symm) (nonnegE.trans_eq e.symm) (nonnegD.trans_eq written.symm) hcd hcn
  have exponent := toNat_mul_mod_eq_one nonnegE nonnegD large (phi ▸ inverse)
  refine ⟨_, u, v, first, second, third, ?_, err⟩
  calc v.x ry = s.x rx ^ ((s.x re).toNat * d.toNat) % s.x rn := by rw [value, x, e, n, written]
    _ = s.x rx % s.x rn := hn ▸ pow_modEq_self_of_primes hp hq hpq (s.x rx) exponent
    _ = s.x rx := Int.emod_eq_of_lt nonnegX below

/-! ## The pseudo-commands (30_encoding.md R58) -/

/-- Settles O52: CLR, SQRMOD, MOV and NEG, each by what its commands write. -/
theorem pseudoCommands : Obligations.PseudoCommands := by
  unfold Obligations.PseudoCommands
  intro s rd ra rm rt fit
  have clear (r : Reg) : exec (.ldi r 0) s = .next (finish (s.setX r 0)) := (ldiWritesItsImmediate s r 0 (by decide)).2
  refine ⟨⟨_, clear rd, finish_setX_same s rd 0⟩, fun pos => ?sqrmod, ?mov, fun hrt => ?neg⟩
  case sqrmod => exact ⟨_, execMulMod_writes fit rd ra ra pos, (finish_setX_same s rd _).trans (by rw [pow_two])⟩
  case mov => exact ⟨_, _, rfl, execLoad_after_store rd (fit ra), finish_setX_same _ rd _⟩
  case neg =>
    have difference : (finish (s.setX rt 0)).x rt - (finish (s.setX rt 0)).x ra = -s.x ra := by
      rw [finish_setX_same, finish_setX_of_ne s 0 hrt, zero_sub]
    have small : (-s.x ra).natAbs < 2 ^ s.params.capacity := (Int.natAbs_neg _).trans_lt (fit ra)
    have second : exec (.sub rd rt ra) (finish (s.setX rt 0)) = _ :=
      (subIsExact (finish (s.setX rt 0)) rd rt ra).2.1 (difference.symm ▸ small)
    exact ⟨_, _, clear rt, second, (finish_setX_same _ rd _).trans difference⟩

end Sys2Proof.Machine
end
